-- ==== Sys2Proof/Word.lean ====
section
/-! DEFINITION. The word type and the register index (spec 10_state.md R20; 00_scope.md R8, R9). -/

namespace Sys2Proof

/-- A register, the pc, a memory word or an instruction word: 32 bits, bit 31 the most significant (R8, R9). -/
abbrev Word := BitVec 32

/-- The index of one of the 32 general registers (R20). -/
abbrev Reg := Fin 32

end Sys2Proof
end

