-- ==== Sys2Proof/Config.lean ====
section
/-! DEFINITION. The parameters of 00_scope.md R7: what the spec fixes, and the values it leaves OPEN as constants
with no body. XLEN, NREG and ILEN are the types `Word`, `Reg` and `Word`; the opcode table is `rowOf` in Decode.lean;
REGNAMES is in Machine/Assembler.lean; RADIX_PREFIX and COMMENT_MARKER are text details no rule depends on. -/

namespace Sys2Proof

/-- `BLT_MODE` (R7, R132): what the engine does with the less-than branch. -/
inductive BltMode where
  /-- The default: the word is an `UnsupportedFunction` fault. -/
  | fault
  /-- The RISC-V meaning: branch on signed less. -/
  | signedLt
deriving DecidableEq, Repr

/-- The parameters "the model takes as an argument" (R7). They stand in `State`, since the step takes a state alone,
and no step changes them (log entry 2: DESIGN CHOICE, safe). -/
structure Params where
  /-- `SP_INIT`: what reset puts into the stack-pointer register (R34, D4). -/
  spInit : Word
  /-- `BLT_MODE` (R132, D9). -/
  bltMode : BltMode
  /-- `DUMP_BASE`: the first address of the final memory dump (R33, D19). -/
  dumpBase : Word
  /-- `DUMP_WORDS`: how many words the final memory dump shows (R33, D19). -/
  dumpWords : Nat
deriving DecidableEq, Repr

/-- `PC_RESET` (R7, R34, R171). -/
def Config.pcReset : Word := 0

/-- `SP_INDEX` (R7, R34): the register reset presets; the index 2 is the spec's decision D3. -/
def Config.spIndex : Reg := 2

/-- `SP_INIT` of the machine in `State.reset`: OPEN in the spec, "any 32-bit value", so nothing here says which
(log entry 1: DESIGN CHOICE, a constant with no body; safe). -/
opaque Config.spInit : Word

/-- `DUMP_BASE` of the machine in `State.reset`: OPEN (log entry 1: DESIGN CHOICE, safe). -/
opaque Config.dumpBase : Word

/-- `DUMP_WORDS` of the machine in `State.reset`: OPEN (log entry 1: DESIGN CHOICE, safe). -/
opaque Config.dumpWords : Nat

/-- The parameters of the machine in `State.reset`: the open values, and `BLT_MODE` at its default `fault` (R7). -/
def Config.params : Params :=
  { spInit := Config.spInit, bltMode := .fault, dumpBase := Config.dumpBase, dumpWords := Config.dumpWords }

end Sys2Proof
end

