-- ==== Sys2Proof/Syntax.lean ====
section
/-! DEFINITION. The instructions (one constructor per row of spec/opcode_table.json, R79), the formats (R60), the
mnemonics, and the names of the encoder's refusal (R73) and of the fault reasons (R150). -/

namespace Sys2Proof

/-- The five instruction formats (R60). -/
inductive Format where
  | R | I | S | B | J
deriving DecidableEq, Repr

/-- The 14 mnemonics (R2, R79). -/
inductive Mnemonic where
  | add | sub | slt | srl | or | and | addi | lw | jalr | sw | beq | bne | blt | jal
deriving DecidableEq, Repr

/-- An instruction. Operands stand in assembly order (R85); an immediate is the mathematical integer the decoder
delivers (R9, R76), and a branch or jump offset is a byte offset (R89). -/
inductive Instr where
  | add  (rd rs1 rs2 : Reg)
  | sub  (rd rs1 rs2 : Reg)
  | slt  (rd rs1 rs2 : Reg)
  | srl  (rd rs1 rs2 : Reg)
  | or   (rd rs1 rs2 : Reg)
  | and  (rd rs1 rs2 : Reg)
  | addi (rd rs1 : Reg) (imm : Int)
  | lw   (rd rs1 : Reg) (imm : Int)
  | jalr (rd rs1 : Reg) (imm : Int)
  | sw   (rs2 rs1 : Reg) (imm : Int)
  | beq  (rs1 rs2 : Reg) (off : Int)
  | bne  (rs1 rs2 : Reg) (off : Int)
  | blt  (rs1 rs2 : Reg) (off : Int)
  | jal  (rd : Reg) (off : Int)
deriving DecidableEq, Repr

/-- One row of the instruction table R79. A field the format lacks is 0 and is not looked at (R67). -/
structure Row where
  fmt    : Format
  opcode : BitVec 7
  funct3 : BitVec 3
  funct7 : BitVec 7
deriving DecidableEq, Repr

/-- What the decoder delivers for a word (R4, R74). -/
structure Decoded where
  opcode : BitVec 7
  funct3 : BitVec 3
  funct7 : BitVec 7
  rd     : Reg
  rs1    : Reg
  rs2    : Reg
  /-- `none` for an opcode that has no format (R77). -/
  fmt    : Option Format
  /-- The immediate of the word's own format; `none` for format R and for no format (R76, R77). -/
  imm    : Option Int
deriving DecidableEq, Repr

/-- The register numbers and the immediate an instruction hands to the encoder; 0 where its format has none (R67). -/
structure EncoderInput where
  rd  : Reg
  rs1 : Reg
  rs2 : Reg
  imm : Int
deriving DecidableEq, Repr

/-- The encoder's one refusal (R4, R73). -/
inductive EncodeError where
  | immediateOutOfRange
deriving DecidableEq, Repr

/-- The reasons of the run state `Faulted(reason)` with what each records (R26, R150). -/
inductive FaultReason where
  /-- The fetched word's opcode is none of the seven; records the opcode (R151). -/
  | unsupportedOpcode (op : BitVec 7)
  /-- The opcode is one of the seven and no executed instruction is selected; records the word (R153). -/
  | unsupportedFunction (w : Word)
  /-- The pc is no multiple of 4 at the start of a step; records the pc (R154). -/
  | misalignedPC (a : Word)
  /-- LW or SW at an effective address that is no multiple of 4; records the address (R155). -/
  | misalignedAccess (ea : Word)
deriving DecidableEq, Repr

end Sys2Proof
end

