-- ==== Sys2Proof/Machine/State.lean ====
section
/-! DEFINITION. The machine's state as plain data (10_state.md R20 to R34), the stops of a step, and the state after
reset (R34, R170). -/

namespace Sys2Proof.Machine

/-- The run state, the only status register (R26). -/
inductive RunState where
  /-- The engine takes another step. -/
  | running
  /-- The program ended through the virtual halt (R133). -/
  | halted
  /-- The pc points past the last word of the instruction store (R101, D5). -/
  | exhausted
  /-- The engine stopped on a word or an access it gives no meaning (R150). -/
  | faulted (reason : FaultReason)
deriving DecidableEq, Repr

/-- Data memory (R31, R42): pairs of a byte address that is a multiple of 4 and the word there, addresses strictly
rising, no word 0; an address not listed reads 0. Words and not bytes, as R45 asks (log entry 5). -/
abbrev Memory := List (Nat × Word)

/-- Everything the spec gives the machine: MachineState (`pc`, `regs`, `dmem`, `run`), and the two things the spec
calls parameters of the step (`imem`, `params`), which no step changes (R30, R7; log entry 2). -/
structure State where
  /-- The program counter, a byte address (R24). -/
  pc : Word
  /-- The 32 general registers; index 0 holds 0 (R20, R21). -/
  regs : Vector Word 32
  /-- Data memory `DMEM` (R31). -/
  dmem : Memory
  /-- The run state (R26). -/
  run : RunState
  /-- The instruction store `IMEM`: word `i` is the instruction at byte address `4*i` (R30). -/
  imem : List Word
  /-- The named parameters of R7. -/
  params : Params
deriving DecidableEq, Repr

/-- Why no step is taken. The spec's own faults are not here: they are the run state `faulted reason`, a next state. -/
inductive Fault where
  /-- Raised by `step` alone, in a state whose run has ended: "no step is enabled in it" (R106, R26). Safe: the machine
  takes no step there either (log entry 4). -/
  | runEnded (run : RunState)
deriving DecidableEq, Repr

/-- Why an instruction has no meaning here. -/
inductive Refusal where
  /-- For an arm of `exec` with no meaning yet; no arm raises it, every instruction has its meaning. Safe. -/
  | notModelled (mnemonic : String)
deriving DecidableEq, Repr

/-- The reset state for given parameters and a given instruction store: `SP_INIT` in the stack-pointer register, 0 in
every other register, memory empty, pc 0, `Running` (R34, R170, R171). -/
def State.resetWith (p : Params) (imem : List Word) : State :=
  { pc := Config.pcReset
    regs := (Vector.replicate 32 0).set Config.spIndex p.spInit
    dmem := []
    run := .running
    imem := imem
    params := p }

/-- The machine right after reset with no program loaded (`N = 0`, R30; log entry 3). -/
def State.reset : State := State.resetWith Config.params []

end Sys2Proof.Machine
end

