-- ==== Sys2Proof/Machine/Flags.lean ====
section
/-! DEFINITION. The machine has no flags (10_state.md R27): what it has instead are the comparisons of two registers,
and the operations of the register-register family on their values (41_alu_rtype.md). -/

namespace Sys2Proof.Machine

/-- `signed(v)`: a 32-bit value as two's complement (R9). -/
def signed (v : Word) : Int := if v.toNat < 2 ^ 31 then (v.toNat : Int) else (v.toNat : Int) - 2 ^ 32

/-- Signed less, of SLT and BLT (R113, R132). -/
def signedLess (a b : Word) : Bool := decide (signed a < signed b)

/-- All 32 bits equal, of BEQ (R130). -/
def wordsEqual (a b : Word) : Bool := a == b

/-- Some bit differs, of BNE (R131). -/
def wordsDiffer (a b : Word) : Bool := a != b

/-- 1 for true and 0 for false, the whole register (R113). -/
def boolWord (b : Bool) : Word := if b then 1 else 0

/-- The shift amount of SRL: the low 5 bits, 0 to 31 (R114). -/
def shiftAmount (v : Word) : Nat := (v.extractLsb' 0 5).toNat

end Sys2Proof.Machine
end

