-- ==== Sys2Proof/WellFormed.lean ====
section
/-! DEFINITION. Which instructions a word can carry: the immediate ranges of R73, and an even offset for B and J,
whose bit 0 has no place in the word (R65, R66, R78). -/

namespace Sys2Proof

/-- The 12-bit signed range of formats I and S (R63, R64, R73). -/
def fitsImm12 (imm : Int) : Bool := decide (-2048 ≤ imm) && decide (imm ≤ 2047)

/-- An offset a format B word can carry: even, from -4096 to 4094 (R65). -/
def fitsOffset13 (off : Int) : Bool := decide (-4096 ≤ off) && decide (off ≤ 4094) && decide (off % 2 = 0)

/-- An offset a format J word can carry: even, from -1048576 to 1048574 (R66, R76). -/
def fitsOffset21 (off : Int) : Bool := decide (-1048576 ≤ off) && decide (off ≤ 1048574) && decide (off % 2 = 0)

/-- The instruction is one that some word carries: its immediate survives encoding and decoding (R78). -/
def Instr.wellFormed : Instr → Bool
  | .add _ _ _ => true
  | .sub _ _ _ => true
  | .slt _ _ _ => true
  | .srl _ _ _ => true
  | .or _ _ _ => true
  | .and _ _ _ => true
  | .addi _ _ imm => fitsImm12 imm
  | .lw _ _ imm => fitsImm12 imm
  | .jalr _ _ imm => fitsImm12 imm
  | .sw _ _ imm => fitsImm12 imm
  | .beq _ _ off => fitsOffset13 off
  | .bne _ _ off => fitsOffset13 off
  | .blt _ _ off => fitsOffset13 off
  | .jal _ off => fitsOffset21 off

end Sys2Proof
end

