-- ==== Sys2Proof/Decode.lean ====
section
/-! DEFINITION. The instruction table (R79), the decoder block (R74 to R77), the engine's match of a word against the
table (R80, R82, R102), the encoder block (R67 to R73), and the text form of a word (R8, R92). Every word is 32 bits
(R60) and is never assembled from bytes (R45). -/

namespace Sys2Proof

/-- The instruction table as configuration (R79, D1): every rule reads opcodes and functions from here alone. -/
def rowOf : Mnemonic → Row
  | .add  => ⟨.R, 0b0110011#7, 0b000#3, 0b0000000#7⟩
  | .sub  => ⟨.R, 0b0110011#7, 0b000#3, 0b0100000#7⟩
  | .slt  => ⟨.R, 0b0110011#7, 0b010#3, 0b0000000#7⟩
  | .srl  => ⟨.R, 0b0110011#7, 0b101#3, 0b0000000#7⟩
  | .or   => ⟨.R, 0b0110011#7, 0b110#3, 0b0000000#7⟩
  | .and  => ⟨.R, 0b0110011#7, 0b111#3, 0b0000000#7⟩
  | .addi => ⟨.I, 0b0010011#7, 0b000#3, 0#7⟩
  | .lw   => ⟨.I, 0b0000011#7, 0b010#3, 0#7⟩
  | .jalr => ⟨.I, 0b1100111#7, 0b000#3, 0#7⟩
  | .sw   => ⟨.S, 0b0100011#7, 0b010#3, 0#7⟩
  | .beq  => ⟨.B, 0b1100011#7, 0b000#3, 0#7⟩
  | .bne  => ⟨.B, 0b1100011#7, 0b001#3, 0#7⟩
  | .blt  => ⟨.B, 0b1100011#7, 0b100#3, 0#7⟩
  | .jal  => ⟨.J, 0b1101111#7, 0#3, 0#7⟩

/-- The rows of the table, in its order (R79). -/
def mnemonics : List Mnemonic :=
  [.add, .sub, .slt, .srl, .or, .and, .addi, .lw, .jalr, .sw, .beq, .bne, .blt, .jal]

/-! ## The decoder: raw fields and immediates -/

/-- `sext_N(v)`: subtract `2^N` when the top bit is set (R9). -/
def sext {n : Nat} (v : BitVec n) : Int :=
  if v.getLsbD (n - 1) then (v.toNat : Int) - 2 ^ n else v.toNat

/-- `opcode = w[6:0]` (R75). -/
def opcodeOf (w : Word) : BitVec 7 := w.extractLsb' 0 7

/-- `rd = w[11:7]` (R75). -/
def rdOf (w : Word) : Reg := (w.extractLsb' 7 5).toFin

/-- `funct3 = w[14:12]` (R75). -/
def funct3Of (w : Word) : BitVec 3 := w.extractLsb' 12 3

/-- `rs1 = w[19:15]` (R75). -/
def rs1Of (w : Word) : Reg := (w.extractLsb' 15 5).toFin

/-- `rs2 = w[24:20]` (R75). -/
def rs2Of (w : Word) : Reg := (w.extractLsb' 20 5).toFin

/-- `funct7 = w[31:25]` (R75). -/
def funct7Of (w : Word) : BitVec 7 := w.extractLsb' 25 7

/-- `imm_I = sext_12( w[31:20] )` (R76). -/
def immI (w : Word) : Int := sext (w.extractLsb' 20 12)

/-- `imm_S = sext_12( w[31:25] ‖ w[11:7] )` (R76). -/
def immS (w : Word) : Int := sext ((w.extractLsb' 25 7 ++ w.extractLsb' 7 5).cast rfl : BitVec 12)

/-- `imm_B = sext_13( w[31] ‖ w[7] ‖ w[30:25] ‖ w[11:8] ‖ 0b0 )` (R76). -/
def immB (w : Word) : Int :=
  sext ((w.extractLsb' 31 1 ++ w.extractLsb' 7 1 ++ w.extractLsb' 25 6 ++ w.extractLsb' 8 4 ++ 0#1).cast rfl : BitVec 13)

/-- `imm_J = sext_21( w[31] ‖ w[19:12] ‖ w[20] ‖ w[30:21] ‖ 0b0 )` (R76). -/
def immJ (w : Word) : Int :=
  sext ((w.extractLsb' 31 1 ++ w.extractLsb' 12 8 ++ w.extractLsb' 20 1 ++ w.extractLsb' 21 10 ++ 0#1).cast rfl
    : BitVec 21)

/-- The immediate of a format; format R has none (R76). -/
def immOf (fmt : Format) (w : Word) : Option Int :=
  match fmt with
  | .R => none
  | .I => some (immI w)
  | .S => some (immS w)
  | .B => some (immB w)
  | .J => some (immJ w)

/-- The format an opcode has through the instruction table, if any (R77). -/
def formatOf (op : BitVec 7) : Option Format :=
  (mnemonics.find? fun m => (rowOf m).opcode == op).map fun m => (rowOf m).fmt

/-- The decoder block `Decode(w)`: total, no check, no refusal (R74 to R77). -/
def decodeFields (w : Word) : Decoded :=
  { opcode := opcodeOf w
    funct3 := funct3Of w
    funct7 := funct7Of w
    rd     := rdOf w
    rs1    := rs1Of w
    rs2    := rs2Of w
    fmt    := formatOf (opcodeOf w)
    imm    := (formatOf (opcodeOf w)).bind fun fmt => immOf fmt w }

/-! ## The match of a word against the table -/

/-- The word matches the row: the opcode, and the functions the row's format has (R79, R80). -/
def rowMatches (r : Row) (w : Word) : Bool :=
  opcodeOf w == r.opcode
    && (r.fmt == .J || funct3Of w == r.funct3)
    && (r.fmt != .R || funct7Of w == r.funct7)

/-- The row the word matches, if any; the rows are pairwise disjoint (R79, R80). -/
def findRow (w : Word) : Option Mnemonic := mnemonics.find? fun m => rowMatches (rowOf m) w

/-- The instruction of a row with the word's own operands (R61, R76, R85). -/
def instrOf (m : Mnemonic) (w : Word) : Instr :=
  match m with
  | .add  => .add (rdOf w) (rs1Of w) (rs2Of w)
  | .sub  => .sub (rdOf w) (rs1Of w) (rs2Of w)
  | .slt  => .slt (rdOf w) (rs1Of w) (rs2Of w)
  | .srl  => .srl (rdOf w) (rs1Of w) (rs2Of w)
  | .or   => .or (rdOf w) (rs1Of w) (rs2Of w)
  | .and  => .and (rdOf w) (rs1Of w) (rs2Of w)
  | .addi => .addi (rdOf w) (rs1Of w) (immI w)
  | .lw   => .lw (rdOf w) (rs1Of w) (immI w)
  | .jalr => .jalr (rdOf w) (rs1Of w) (immI w)
  | .sw   => .sw (rs2Of w) (rs1Of w) (immS w)
  | .beq  => .beq (rs1Of w) (rs2Of w) (immB w)
  | .bne  => .bne (rs1Of w) (rs2Of w) (immB w)
  | .blt  => .blt (rs1Of w) (rs2Of w) (immB w)
  | .jal  => .jal (rdOf w) (immJ w)

/-- Decode and dispatch of R102, less the execution: the instruction a word is, or the reason it faults with. Total on
every word. An opcode that is none of the seven gives `UnsupportedOpcode`, one of the seven with no row gives
`UnsupportedFunction` (R82, R151, R153). -/
def decode (w : Word) : Except FaultReason Instr :=
  match findRow w with
  | some m => .ok (instrOf m w)
  | none =>
    match formatOf (opcodeOf w) with
    | none => .error (.unsupportedOpcode (opcodeOf w))
    | some _ => .error (.unsupportedFunction w)

/-! ## The encoder -/

/-- The validator's range check of an immediate, which guards the encoder (R73); format R has no immediate. -/
def immFits (fmt : Format) (imm : Int) : Bool :=
  match fmt with
  | .R => true
  | .I => decide (-2048 ≤ imm) && decide (imm ≤ 2047)
  | .S => decide (-2048 ≤ imm) && decide (imm ≤ 2047)
  | .B => decide (-4096 ≤ imm) && decide (imm ≤ 4095)
  | .J => decide (-1048576 ≤ imm) && decide (imm ≤ 1048575)

/-- A register number as the 5 bits of its field. -/
def regBits (r : Reg) : BitVec 5 := BitVec.ofNat 5 r.val

/-- Encode, format R (R68). -/
def packR (opcode : BitVec 7) (funct3 : BitVec 3) (funct7 : BitVec 7) (rd rs1 rs2 : Reg) : Word :=
  (funct7 ++ regBits rs2 ++ regBits rs1 ++ funct3 ++ regBits rd ++ opcode).cast rfl

/-- Encode, format I (R69): `u` is the 12-bit pattern of the immediate. -/
def packI (opcode : BitVec 7) (funct3 : BitVec 3) (rd rs1 : Reg) (imm : Int) : Word :=
  (BitVec.ofInt 12 imm ++ regBits rs1 ++ funct3 ++ regBits rd ++ opcode).cast rfl

/-- Encode, format S (R70): `u` is the 12-bit pattern of the immediate. -/
def packS (opcode : BitVec 7) (funct3 : BitVec 3) (rs1 rs2 : Reg) (imm : Int) : Word :=
  let u := BitVec.ofInt 12 imm
  (u.extractLsb' 5 7 ++ regBits rs2 ++ regBits rs1 ++ funct3 ++ u.extractLsb' 0 5 ++ opcode).cast rfl

/-- Encode, format B (R71): `u` is the 13-bit pattern of the immediate, and `u[0]` is not packed. -/
def packB (opcode : BitVec 7) (funct3 : BitVec 3) (rs1 rs2 : Reg) (imm : Int) : Word :=
  let u := BitVec.ofInt 13 imm
  (u.extractLsb' 12 1 ++ u.extractLsb' 5 6 ++ regBits rs2 ++ regBits rs1 ++ funct3 ++ u.extractLsb' 1 4
    ++ u.extractLsb' 11 1 ++ opcode).cast rfl

/-- Encode, format J (R72): `u` is the 21-bit pattern of the immediate, and `u[0]` is not packed. -/
def packJ (opcode : BitVec 7) (rd : Reg) (imm : Int) : Word :=
  let u := BitVec.ofInt 21 imm
  (u.extractLsb' 20 1 ++ u.extractLsb' 1 10 ++ u.extractLsb' 11 1 ++ u.extractLsb' 12 8 ++ regBits rd
    ++ opcode).cast rfl

/-- The packing of the encoder, by format; inputs a format lacks are ignored (R67). -/
def pack (r : Row) (x : EncoderInput) : Word :=
  match r.fmt with
  | .R => packR r.opcode r.funct3 r.funct7 x.rd x.rs1 x.rs2
  | .I => packI r.opcode r.funct3 x.rd x.rs1 x.imm
  | .S => packS r.opcode r.funct3 x.rs1 x.rs2 x.imm
  | .B => packB r.opcode r.funct3 x.rs1 x.rs2 x.imm
  | .J => packJ r.opcode x.rd x.imm

/-- The encoder block: any opcode in any format, refusing an immediate out of the format's range (R67, R73). -/
def encodeFields (r : Row) (x : EncoderInput) : Except EncodeError Word :=
  if immFits r.fmt x.imm then .ok (pack r x) else .error .immediateOutOfRange

/-- The row an instruction belongs to (R79). -/
def mnemonicOf : Instr → Mnemonic
  | .add _ _ _ => .add
  | .sub _ _ _ => .sub
  | .slt _ _ _ => .slt
  | .srl _ _ _ => .srl
  | .or _ _ _ => .or
  | .and _ _ _ => .and
  | .addi _ _ _ => .addi
  | .lw _ _ _ => .lw
  | .jalr _ _ _ => .jalr
  | .sw _ _ _ => .sw
  | .beq _ _ _ => .beq
  | .bne _ _ _ => .bne
  | .blt _ _ _ => .blt
  | .jal _ _ => .jal

/-- What an instruction hands to the encoder (R67, R85). -/
def encoderInput : Instr → EncoderInput
  | .add rd rs1 rs2 => ⟨rd, rs1, rs2, 0⟩
  | .sub rd rs1 rs2 => ⟨rd, rs1, rs2, 0⟩
  | .slt rd rs1 rs2 => ⟨rd, rs1, rs2, 0⟩
  | .srl rd rs1 rs2 => ⟨rd, rs1, rs2, 0⟩
  | .or rd rs1 rs2 => ⟨rd, rs1, rs2, 0⟩
  | .and rd rs1 rs2 => ⟨rd, rs1, rs2, 0⟩
  | .addi rd rs1 imm => ⟨rd, rs1, 0, imm⟩
  | .lw rd rs1 imm => ⟨rd, rs1, 0, imm⟩
  | .jalr rd rs1 imm => ⟨rd, rs1, 0, imm⟩
  | .sw rs2 rs1 imm => ⟨0, rs1, rs2, imm⟩
  | .beq rs1 rs2 off => ⟨0, rs1, rs2, off⟩
  | .bne rs1 rs2 off => ⟨0, rs1, rs2, off⟩
  | .blt rs1 rs2 off => ⟨0, rs1, rs2, off⟩
  | .jal rd off => ⟨rd, 0, 0, off⟩

/-- The packed word of an instruction, without the range check. -/
def wordOf (i : Instr) : Word := pack (rowOf (mnemonicOf i)) (encoderInput i)

/-- The word of an instruction, or the encoder's refusal (R67, R73). -/
def encode (i : Instr) : Except EncodeError Word := encodeFields (rowOf (mnemonicOf i)) (encoderInput i)

/-! ## The text form of a word, and the host's view of the table -/

/-- The 32-character text form of a word, bit 31 first (R8, R60, R92). -/
def wordText (w : Word) : String :=
  String.ofList ((List.range 32).map fun k => if w.getLsbD (31 - k) then '1' else '0')

/-- The value of a list of binary digits, most significant first; `none` if a character is no digit. -/
def binaryValue : List Char → Nat → Option Nat
  | [], acc => some acc
  | c :: cs, acc =>
    if c = '0' then binaryValue cs (2 * acc) else if c = '1' then binaryValue cs (2 * acc + 1) else none

/-- The word of a 32-character text form, as the simulator reads it back (R92); `none` for any other text. -/
def textWord (t : String) : Option Word :=
  if t.toList.length = 32 then (binaryValue t.toList 0).map fun n => BitVec.ofNat 32 n else none

/-- The instruction the decoder reads from the one word whose bits are `w` (bit 0 least significant), as
spec/opcode_table.json numbers them; an instruction is exactly one 32-bit word (R60), so bits above `nbits` are 0 and
a longer pattern is no instruction. -/
def decodeTableWord (nbits w : Nat) : Option Instr :=
  if nbits ≤ 32 then
    match decode (BitVec.ofNat 32 (w % 2 ^ nbits)) with
    | .ok i => some i
    | .error _ => none
  else none

end Sys2Proof
end

