-- ==== Sys2Proof/Machine/Ops.lean ====
section
/-! DEFINITION. The named operations over registers, memories and the run state (00_scope.md R10): register read and
write, MemRead, MemWrite, IFetch, raising a fault, the endings, and reset. -/

namespace Sys2Proof.Machine

/-! ## Registers -/

/-- `x[i]`: register 0 reads 0 always (R10, R21). -/
def State.readReg (s : State) (r : Reg) : Word := if r = 0 then 0 else s.regs.get r

/-- `x[i] <- v`: a write to register 0 is discarded (R10, R21). -/
def State.writeReg (s : State) (r : Reg) (v : Word) : State :=
  if r = 0 then s else { s with regs := s.regs.set r v }

/-- The re-pin `x[0] <- 0` after a step's writes (R21, R104). -/
def State.repin (s : State) : State := { s with regs := s.regs.set 0 0 }

/-- The end of an executed instruction: re-pin `x[0]`, then the next pc (R100, R104). -/
def State.retire (s : State) (nextPc : Word) : State := { s.repin with pc := nextPc }

/-! ## Data memory -/

/-- The address is a multiple of 4 (R41, R46). -/
def aligned (a : Word) : Bool := decide (a.toNat % 4 = 0)

/-- `MemRead`: the word at an address, 0 where none is listed (R43). -/
def memRead : Memory → Nat → Word
  | [], _ => 0
  | (b, u) :: m, a => if b = a then u else memRead m a

/-- Memory without what it lists at an address. -/
def memErase (m : Memory) (a : Nat) : Memory := m.filter fun c => decide (c.1 ≠ a)

/-- Memory with a cell put before the first higher address. -/
def memInsert : Memory → Nat → Word → Memory
  | [], a, v => [(a, v)]
  | (b, u) :: m, a, v => if a < b then (a, v) :: (b, u) :: m else (b, u) :: memInsert m a v

/-- `MemWrite`: the word at one address becomes `v`; 0 is what an unlisted address reads, so it is not listed (R44). -/
def memWrite (m : Memory) (a : Nat) (v : Word) : Memory :=
  if v = 0 then memErase m a else memInsert (memErase m a) a v

/-- Every address of the list is above `lo`, and they rise strictly. -/
def risingFrom : Nat → Memory → Bool
  | _, [] => true
  | lo, (a, _) :: m => decide (lo < a) && risingFrom a m

/-- The addresses rise strictly. -/
def rising : Memory → Bool
  | [] => true
  | (a, _) :: m => risingFrom a m

/-- A cell that may be listed: a word-aligned address of the data space, holding no 0 (R42). -/
def cellOk (c : Nat × Word) : Bool := decide (c.1 % 4 = 0) && decide (c.1 < 2 ^ 32) && decide (c.2 ≠ 0)

/-- The canonical form of data memory: equal memories are equal lists. -/
def Memory.wf (m : Memory) : Bool := rising m && m.all cellOk

/-- Read of the data word at a word-aligned byte address (R43). -/
def State.loadWord (s : State) (a : Word) : Word := memRead s.dmem a.toNat

/-- Write of the data word at a word-aligned byte address (R44). -/
def State.storeWord (s : State) (a v : Word) : State := { s with dmem := memWrite s.dmem a.toNat v }

/-! ## Instruction store -/

/-- What an instruction fetch answers (R41). -/
inductive Fetched where
  | misaligned
  | absent
  | word (w : Word)
deriving DecidableEq, Repr

/-- `IFetch(a)` (R41). -/
def ifetch (imem : List Word) (a : Word) : Fetched :=
  if aligned a then
    match imem[a.toNat / 4]? with
    | some w => .word w
    | none => .absent
  else .misaligned

/-- The instruction store with word `k` put to `w`; a store that is too short grows, its new words 0. -/
def setImem : List Word → Nat → Word → List Word
  | [], 0, w => [w]
  | [], k + 1, w => 0 :: setImem [] k w
  | _ :: ws, 0, w => w :: ws
  | v :: ws, k + 1, w => v :: setImem ws k w

/-! ## Faults, endings, reset -/

/-- `raise Fault(reason)`, the one entry into a fault: `run` becomes `Faulted(reason)` and nothing else changes; nothing
is saved and control goes nowhere (R152, R158). -/
def State.raiseFault (s : State) (r : FaultReason) : State := { s with run := .faulted r }

/-- The instruction stream is exhausted: only `run` changes (R101). -/
def State.exhaust (s : State) : State := { s with run := .exhausted }

/-- `halt`, after the step's own writes (R10, R133). -/
def State.halt (s : State) : State := { s with run := .halted }

/-- Reset, at any time and from any run state: the only way back from a fault or an ending (R158, R170). The
instruction store and the parameters stay. -/
def State.applyReset (s : State) : State := State.resetWith s.params s.imem

/-- The host loads a program before reset (R56, R172). -/
def State.loadProgram (s : State) (program : List Word) : State := { s with imem := program }

end Sys2Proof.Machine
end

