-- ==== Sys2Proof/Machine/Operands.lean ====
section
/-! DEFINITION. The operand forms: base plus displacement, pc-relative and absolute targets, the link address. All sums
wrap modulo 2^32 (00_scope.md R9, 41_alu_rtype.md R117). -/

namespace Sys2Proof.Machine

/-- A 32-bit value plus a sign-extended immediate, modulo `2^32`: the same as adding the immediate's 32-bit pattern
(R9). -/
def addImm (v : Word) (imm : Int) : Word := v + BitVec.ofInt 32 imm

/-- The only addressing mode: base register plus displacement (R127). -/
def effectiveAddress (s : State) (rs1 : Reg) (imm : Int) : Word := addImm (s.readReg rs1) imm

/-- The address of the next instruction, which is also the link address (R104, R142). -/
def nextPc (s : State) : Word := s.pc + 4

/-- A branch or jump target: the instruction's own address plus the byte offset (R134, R140). -/
def relativeTarget (s : State) (off : Int) : Word := addImm s.pc off

/-- The target of JALR: the sum with bit 0 cleared, and only bit 0 (R141, C2). -/
def indirectTarget (s : State) (rs1 : Reg) (imm : Int) : Word := effectiveAddress s rs1 imm &&& 0xFFFFFFFE#32

end Sys2Proof.Machine
end

