-- ==== Sys2Proof/Machine/Alu.lean ====
section
/-! DEFINITION. The register-register family ADD, SUB, SLT, SRL, OR, AND (41_alu_rtype.md) and ADDI (42_addi.md). -/

namespace Sys2Proof.Machine

/-- An instruction that writes one register and moves on: `x[rd] <- v`, `pc <- pc + 4` (R110, R104). -/
def writeAndAdvance (rd : Reg) (v : Word) (s : State) : Host.Outcome State Fault Refusal :=
  .next ((s.writeReg rd v).retire (nextPc s))

/-- The common shape of the family: both operands are read before the write (R103, R110). -/
def aluOp (f : Word → Word → Word) (rd rs1 rs2 : Reg) (s : State) : Host.Outcome State Fault Refusal :=
  writeAndAdvance rd (f (s.readReg rs1) (s.readReg rs2)) s

/-- ADD (R111). -/
def execAdd (rd rs1 rs2 : Reg) (s : State) : Host.Outcome State Fault Refusal :=
  aluOp (fun a b => a + b) rd rs1 rs2 s

/-- SUB: the first source is the minuend (R112). -/
def execSub (rd rs1 rs2 : Reg) (s : State) : Host.Outcome State Fault Refusal :=
  aluOp (fun a b => a - b) rd rs1 rs2 s

/-- SLT: signed (R113). -/
def execSlt (rd rs1 rs2 : Reg) (s : State) : Host.Outcome State Fault Refusal :=
  aluOp (fun a b => boolWord (signedLess a b)) rd rs1 rs2 s

/-- SRL: by the low 5 bits, zero fill (R114). -/
def execSrl (rd rs1 rs2 : Reg) (s : State) : Host.Outcome State Fault Refusal :=
  aluOp (fun a b => a >>> shiftAmount b) rd rs1 rs2 s

/-- OR (R115). -/
def execOr (rd rs1 rs2 : Reg) (s : State) : Host.Outcome State Fault Refusal :=
  aluOp (fun a b => a ||| b) rd rs1 rs2 s

/-- AND (R116). -/
def execAnd (rd rs1 rs2 : Reg) (s : State) : Host.Outcome State Fault Refusal :=
  aluOp (fun a b => a &&& b) rd rs1 rs2 s

/-- ADDI (R120). -/
def execAddi (rd rs1 : Reg) (imm : Int) (s : State) : Host.Outcome State Fault Refusal :=
  writeAndAdvance rd (addImm (s.readReg rs1) imm) s

end Sys2Proof.Machine
end

