-- ==== Sys2Proof/Machine/Branch.lean ====
section
/-! DEFINITION. BEQ, BNE, BLT and the virtual halt (44_branch.md). -/

namespace Sys2Proof.Machine

/-- The fields of the virtual halt: offset 0 and both register fields 0, the indices and not the values (R133). -/
def isHaltForm (rs1 rs2 : Reg) (off : Int) : Bool := decide (off = 0) && decide (rs1 = 0) && decide (rs2 = 0)

/-- A taken branch: pc to its own address plus the offset, then the halt if it has the halt's form (R130, R133). -/
def takeBranch (rs1 rs2 : Reg) (off : Int) (s : State) : State :=
  let t := s.retire (relativeTarget s off)
  if isHaltForm rs1 rs2 off then t.halt else t

/-- The common shape of the family: compare two registers, branch or move on (R130, R131, R134). -/
def branchOn (cond : Word → Word → Bool) (rs1 rs2 : Reg) (off : Int) (s : State) : Host.Outcome State Fault Refusal :=
  if cond (s.readReg rs1) (s.readReg rs2) then .next (takeBranch rs1 rs2 off s) else .next (s.retire (nextPc s))

/-- BEQ (R130). -/
def execBeq (rs1 rs2 : Reg) (off : Int) (s : State) : Host.Outcome State Fault Refusal :=
  branchOn wordsEqual rs1 rs2 off s

/-- BNE (R131). -/
def execBne (rs1 rs2 : Reg) (off : Int) (s : State) : Host.Outcome State Fault Refusal :=
  branchOn wordsDiffer rs1 rs2 off s

/-- BLT: a fault that records the whole word, or a branch on signed less, as `BLT_MODE` says (R132, R153). -/
def execBlt (rs1 rs2 : Reg) (off : Int) (s : State) : Host.Outcome State Fault Refusal :=
  match s.params.bltMode with
  | .fault => .next (s.raiseFault (.unsupportedFunction (wordOf (.blt rs1 rs2 off))))
  | .signedLt => branchOn signedLess rs1 rs2 off s

end Sys2Proof.Machine
end

