-- ==== Sys2Proof/Machine/Jump.lean ====
section
/-! DEFINITION. JAL and JALR (45_jump.md). -/

namespace Sys2Proof.Machine

/-- Link and jump: the target is given, computed before the link is written (R103, R140, R141). -/
def linkAndJump (rd : Reg) (target : Word) (s : State) : Host.Outcome State Fault Refusal :=
  .next ((s.writeReg rd (nextPc s)).retire target)

/-- JAL (R140). -/
def execJal (rd : Reg) (off : Int) (s : State) : Host.Outcome State Fault Refusal :=
  linkAndJump rd (relativeTarget s off) s

/-- JALR (R141). -/
def execJalr (rd rs1 : Reg) (imm : Int) (s : State) : Host.Outcome State Fault Refusal :=
  linkAndJump rd (indirectTarget s rs1 imm) s

end Sys2Proof.Machine
end

