-- ==== Sys2Proof/Machine/LoadStore.lean ====
section
/-! DEFINITION. LW and SW (43_load_store.md). -/

namespace Sys2Proof.Machine

/-- The alignment check LW and SW share: a misaligned effective address faults and nothing else happens (R46, R155). -/
def withAlignedAddress (rs1 : Reg) (imm : Int) (s : State) (access : Word → State) :
    Host.Outcome State Fault Refusal :=
  let ea := effectiveAddress s rs1 imm
  if aligned ea then .next (access ea) else .next (s.raiseFault (.misalignedAccess ea))

/-- LW (R125). -/
def execLw (rd rs1 : Reg) (imm : Int) (s : State) : Host.Outcome State Fault Refusal :=
  withAlignedAddress rs1 imm s fun ea => (s.writeReg rd (s.loadWord ea)).retire (nextPc s)

/-- SW (R126). -/
def execSw (rs2 rs1 : Reg) (imm : Int) (s : State) : Host.Outcome State Fault Refusal :=
  withAlignedAddress rs1 imm s fun ea => (s.storeWord ea (s.readReg rs2)).retire (nextPc s)

end Sys2Proof.Machine
end

