-- ==== Sys2Proof/Machine/Step.lean ====
section
/-! DEFINITION. One step of the engine (40_fetch_dispatch.md R100 to R102), and the placing of a word where the step
fetches. -/

namespace Sys2Proof.Machine

/-- One step, enabled only when the run state is `Running`: fetch, then decode and dispatch, then execute. A misaligned
pc and an undecodable word fault, an absent word ends the run; each is a next state (R100, R101, R102, R106). -/
def step (s : State) : Host.Outcome State Fault Refusal :=
  match s.run with
  | .running =>
    match ifetch s.imem s.pc with
    | .misaligned => .next (s.raiseFault (.misalignedPC s.pc))
    | .absent => .next s.exhaust
    | .word w =>
      match decode w with
      | .error r => .next (s.raiseFault r)
      | .ok i => exec i s
  | .halted => .fault (.runEnded .halted)
  | .exhausted => .fault (.runEnded .exhausted)
  | .faulted r => .fault (.runEnded (.faulted r))

/-- The state with an instruction word placed where the next step fetches: in the instruction store at the pc. A fetch
needs the run state `Running` and a pc that is a multiple of 4, so both are set too; at `State.reset` they already
hold. This stands for the host's load of a program (R172; log entry 3). -/
def State.withFetchWord (s : State) (nbits w : Nat) : State :=
  { s with
    run := .running
    pc := s.pc &&& 0xFFFFFFFC#32
    imem := setImem s.imem ((s.pc &&& 0xFFFFFFFC#32).toNat / 4) (BitVec.ofNat 32 (w % 2 ^ nbits)) }

end Sys2Proof.Machine
end

