-- ==== Sys2Proof/Machine/Assembler.lean ====
section
/-! DEFINITION. The assembler layer in front of the encoder, on tokens and not on text (00_scope.md R5, R6;
30_encoding.md section 7, R84 to R92; register names 10_state.md R23). -/

namespace Sys2Proof.Machine

/-- One operand token: a name (a register or a label), an integer literal, or the composite `offset(base)` (R85). -/
inductive Operand where
  | name (s : String)
  | lit (n : Int)
  | mem (offset : Int) (base : String)
deriving DecidableEq, Repr

/-- One line of input, comment and empty lines left out: a label, an instruction (mnemonic and operands), or both
(R84). DESIGN CHOICE (log entry 8): a line holds at most one label, and a label is any text; whether two labels may share
a line, and which characters a label may have, is not in the source (N21). Two labels at one address are two lines here,
since a line with a label alone takes no address (R84). -/
structure Line where
  label : Option String
  instr : Option (String × List Operand)
deriving DecidableEq, Repr

/-- The assembler's errors: the four of the validator and the resolution error (R91). -/
inductive AsmError where
  | unknownInstruction
  | argumentCountMismatch
  | unknownRegister
  | immediateOutOfRange
  | unresolvedLabel
  /-- The model's own: the spec does not say what happens (an operand token of the wrong shape, a label defined twice;
  N21, N26). Safe: no word is produced (log entry 8). -/
  | unspecified
deriving DecidableEq, Repr

/-- `REGNAMES`: the register-name table, entry `i` the name of register `i` (R23, D2). -/
def registerNames : List String :=
  ["zero", "ra", "sp", "gp", "tp", "t0", "t1", "t2", "s0", "s1", "a0", "a1", "a2", "a3", "a4", "a5"]
    ++ ["a6", "a7", "s2", "s3", "s4", "s5", "s6", "s7", "s8", "s9", "s10", "s11", "t3", "t4", "t5", "t6"]

/-- The index of a name in a list of names. -/
def nameIndex : List String → String → Option Nat
  | [], _ => none
  | n :: ns, s => if n = s then some 0 else (nameIndex ns s).map (· + 1)

/-- The register of a name (R23, R87). DESIGN CHOICE (log entry 12): names are matched exactly, in the lower case of the
source's examples, so an upper-case name is no register; whether it is one is not in the source (R85, N9). -/
def registerOf (s : String) : Option Reg := (nameIndex registerNames s).map (Fin.ofNat 32)

/-- The spelling of a mnemonic (R2, R85), in lower case alone: DESIGN CHOICE (log entry 12), as R85 and N9 leave upper
case open. -/
def spelling : Mnemonic → String
  | .add => "add"
  | .sub => "sub"
  | .slt => "slt"
  | .srl => "srl"
  | .or => "or"
  | .and => "and"
  | .addi => "addi"
  | .lw => "lw"
  | .jalr => "jalr"
  | .sw => "sw"
  | .beq => "beq"
  | .bne => "bne"
  | .blt => "blt"
  | .jal => "jal"

/-- The mnemonic of a spelling (R87), matched exactly: an upper-case spelling is `UnknownInstruction`, DESIGN CHOICE
(log entry 12; R85 and N9 leave it open). -/
def mnemonicOfName (s : String) : Option Mnemonic := mnemonics.find? fun m => spelling m == s

/-- The token count of a line, the mnemonic among them (R86). -/
def tokenCount (m : Mnemonic) : Nat :=
  match m with
  | .lw => 3
  | .sw => 3
  | .jal => 3
  | .add | .sub | .slt | .srl | .or | .and | .addi | .jalr | .beq | .bne | .blt => 4

/-- The LabelTable: labels with the address each names, in order of definition (R84, R90). -/
abbrev LabelTable := List (String × Int)

/-- The forward scan from an address on: a label names the current address, and an instruction line takes 4 bytes,
whether or not it assembles (R84). -/
def scanLabels : Int → List Line → LabelTable
  | _, [] => []
  | a, l :: ls =>
    let next := match l.instr with
      | some _ => a + 4
      | none => a
    match l.label with
    | some n => (n, a) :: scanLabels next ls
    | none => scanLabels next ls

/-- The address of a label: `UnresolvedLabel` if absent (R90). -/
def labelAddress (table : LabelTable) (n : String) : Except AsmError Int :=
  match table.filter fun e => e.1 == n with
  | [] => .error .unresolvedLabel
  | [e] => .ok e.2
  | _ :: _ :: _ => .error .unspecified

/-- A register slot (R87). -/
def registerSlot (o : Operand) : Except AsmError Reg :=
  match o with
  | .name s =>
    match registerOf s with
    | some r => .ok r
    | none => .error .unknownRegister
  | .lit _ => .error .unknownRegister
  | .mem _ _ => .error .unknownRegister

/-- An immediate slot of addi or jalr (R85). -/
def immediateSlot (o : Operand) : Except AsmError Int :=
  match o with
  | .lit n => .ok n
  | .name _ => .error .unspecified
  | .mem _ _ => .error .unspecified

/-- A branch or jump target: a literal is the byte offset itself, a label gives its address less the instruction's own
(R89). -/
def targetSlot (table : LabelTable) (own : Int) (o : Operand) : Except AsmError Int :=
  match o with
  | .lit n => .ok n
  | .name s =>
    match labelAddress table s with
    | .ok a => .ok (a - own)
    | .error e => .error e
  | .mem _ _ => .error .unspecified

/-- The composite slot of lw and sw: offset and base register (R85). -/
def compositeSlot (o : Operand) : Except AsmError (Int × Reg) :=
  match o with
  | .mem n b =>
    match registerOf b with
    | some r => .ok (n, r)
    | none => .error .unknownRegister
  | .name _ => .error .unspecified
  | .lit _ => .error .unspecified

/-- The instruction of a line: the slots of its mnemonic in the order of R85, registers before the immediate (R88); so an
unknown register is reported before an unresolved label (DEDUCED from R88 and R90, log entry 12). -/
def parseOperands (table : LabelTable) (own : Int) (m : Mnemonic) (ops : List Operand) : Except AsmError Instr :=
  let regs3 (f : Reg → Reg → Reg → Instr) : Except AsmError Instr :=
    match ops with
    | [a, b, c] => do return f (← registerSlot a) (← registerSlot b) (← registerSlot c)
    | _ => .error .argumentCountMismatch
  let regs2imm (f : Reg → Reg → Int → Instr) : Except AsmError Instr :=
    match ops with
    | [a, b, c] => do return f (← registerSlot a) (← registerSlot b) (← immediateSlot c)
    | _ => .error .argumentCountMismatch
  let regMem (f : Reg → Reg → Int → Instr) : Except AsmError Instr :=
    match ops with
    | [a, b] => do
      let r ← registerSlot a
      let (n, base) ← compositeSlot b
      return f r base n
    | _ => .error .argumentCountMismatch
  let regs2target (f : Reg → Reg → Int → Instr) : Except AsmError Instr :=
    match ops with
    | [a, b, c] => do return f (← registerSlot a) (← registerSlot b) (← targetSlot table own c)
    | _ => .error .argumentCountMismatch
  match m with
  | .add => regs3 .add
  | .sub => regs3 .sub
  | .slt => regs3 .slt
  | .srl => regs3 .srl
  | .or => regs3 .or
  | .and => regs3 .and
  | .addi => regs2imm .addi
  | .jalr => regs2imm .jalr
  | .lw => regMem .lw
  | .sw => regMem .sw
  | .beq => regs2target .beq
  | .bne => regs2target .bne
  | .blt => regs2target .blt
  | .jal =>
    match ops with
    | [a, b] => do return .jal (← registerSlot a) (← targetSlot table own b)
    | _ => .error .argumentCountMismatch

/-- The word of a parsed instruction, or the error of the encoder's one refusal (R73, R91). -/
def encodeLine (i : Instr) : Except AsmError Word :=
  match encode i with
  | .ok w => .ok w
  | .error .immediateOutOfRange => .error .immediateOutOfRange

/-- One instruction line at its own address: mnemonic, operand count, registers and target, range, in that order (R86
to R88); the range of a label's offset is checked once it is resolved (R73, D16). -/
def assembleLine (table : LabelTable) (own : Int) (mn : String) (ops : List Operand) : Except AsmError Word :=
  match mnemonicOfName mn with
  | none => .error .unknownInstruction
  | some m =>
    if ops.length + 1 ≠ tokenCount m then .error .argumentCountMismatch
    else
      match parseOperands table own m ops with
      | .error e => .error e
      | .ok i => encodeLine i

/-- The output lines from an address on: one word or error per instruction line, in order; an error keeps its place and
its 4 bytes, and stops nothing (R84, R91, R92). -/
def assembleFrom (table : LabelTable) : Int → List Line → List (Except AsmError Word)
  | _, [] => []
  | a, l :: ls =>
    match l.instr with
    | some (mn, ops) => assembleLine table a mn ops :: assembleFrom table (a + 4) ls
    | none => assembleFrom table a ls

/-- The assembler: the scan from address 0, then every line with the finished LabelTable (R84, R90). -/
def assemble (ls : List Line) : List (Except AsmError Word) := assembleFrom (scanLabels 0 ls) 0 ls

/-- The program of an assembly with no error line; with one it is no valid input of the simulator (R91, R172). -/
def programOf : List (Except AsmError Word) → Option (List Word)
  | [] => some []
  | .ok w :: os => (programOf os).map (w :: ·)
  | .error _ :: _ => none

end Sys2Proof.Machine
end

