-- ==== Sys2Proof/Machine/Observe.lean ====
section
/-! DEFINITION. What the host sees and does: snapshots and the final memory dump, which are observations and not state
(10_state.md R33; 40_fetch_dispatch.md R105, R106), and the boot sequence (70_reset_and_hazards.md R172). -/

namespace Sys2Proof.Machine

/-- A snapshot: the pc and the 32 registers (R33, R105). -/
structure Snapshot where
  pc   : Word
  regs : List Word
deriving DecidableEq, Repr

/-- The snapshot of a state; register 0 shows 0 (R105). -/
def snapshotOf (s : State) : Snapshot :=
  { pc := s.pc, regs := (List.finRange 32).map fun r => s.readReg r }

/-- What one step emits: one snapshot of the state after it, for an executed step and for a faulting one; none when the
stream is exhausted or no step is taken (R105, R106). -/
def emitted (s : State) : Option Snapshot :=
  match step s with
  | .next t => if t.run = .exhausted then none else some (snapshotOf t)
  | .fault _ => none
  | .refused _ => none

/-- The run has ended: the state is final (R106). -/
def ended (s : State) : Bool := decide (s.run ≠ .running)

/-- The memory dump: `DUMP_WORDS` consecutive words from `DUMP_BASE`, 0 where never written (R33, R106). -/
def memoryDump (s : State) : List Word :=
  (List.range s.params.dumpWords).map fun k => memRead s.dmem (s.params.dumpBase.toNat + 4 * k)

/-- What the host is given at the end: the dump, once the run has ended, for all three endings (R56, R106). -/
def finalDump (s : State) : Option (List Word) := if ended s then some (memoryDump s) else none

/-- The words of the simulator's input lines, or `none` if a line is no 32-character word text (R92). -/
def readLines : List String → Option (List Word)
  | [] => some []
  | t :: ts =>
    match textWord t, readLines ts with
    | some w, some ws => some (w :: ws)
    | _, _ => none

/-- Boot: the host loads the program, then applies reset (R172). -/
def boot (s : State) (program : List Word) : State := (s.loadProgram program).applyReset

end Sys2Proof.Machine
end

