-- ==== Sys2Proof/Machine/Run.lean ====
section
/-! DEFINITION. A run: the step under fuel (40_fetch_dispatch.md R106, R108). Fuel bounds how far a run is followed; it is
no part of the machine, which has no step limit, so running out of fuel is no ending. -/

namespace Sys2Proof.Machine

/-- The state one step later; a run that has ended takes no step (R106). -/
def State.advance (s : State) : State :=
  match step s with
  | .next t => t
  | .fault _ => s
  | .refused _ => s

/-- The state `k` steps later, or the final state if the run ends before (R106, R108). -/
def stateAfter : Nat → State → State
  | 0, s => s
  | k + 1, s => stateAfter k s.advance

/-- The snapshots the first `k` steps show, in order (R105, R106). -/
def snapshotsFor : Nat → State → List Snapshot
  | 0, _ => []
  | k + 1, s => (emitted s).toList ++ snapshotsFor k s.advance

/-- What following a run for some fuel gives. -/
inductive RunResult where
  /-- The run has ended: its final state, all its snapshots, and the one memory dump (R106). -/
  | ended (final : State) (snapshots : List Snapshot) (dump : List Word)
  /-- The run has not ended within the fuel: where it stands and what it has shown. Not an ending (R108). -/
  | outOfFuel (reached : State) (snapshots : List Snapshot)
deriving DecidableEq, Repr

/-- The run from a state, followed for at most `fuel` steps (R108). -/
def runWithFuel (fuel : Nat) (s : State) : RunResult :=
  if ended (stateAfter fuel s) then
    .ended (stateAfter fuel s) (snapshotsFor fuel s) (memoryDump (stateAfter fuel s))
  else .outOfFuel (stateAfter fuel s) (snapshotsFor fuel s)

/-- An infinite execution: no fuel is enough, the run never ends (R108). -/
def RunsForEver (s : State) : Prop := ∀ fuel, (stateAfter fuel s).run = .running

end Sys2Proof.Machine
end

