-- ==== Sys2Proof/Safety.lean ====
section
/-! DEFINITION. The terms claims are stated in: frames, the invariant of the machine, and what an ended run says. -/

namespace Sys2Proof.Machine

/-- Every register reads as before. -/
def SameRegs (s t : State) : Prop := ∀ r : Reg, t.readReg r = s.readReg r

/-- The register `rd` reads `v` (register 0 still reads 0) and every other register reads as before (R21, R104). -/
def OnlyReg (rd : Reg) (v : Word) (s t : State) : Prop :=
  ∀ r : Reg, t.readReg r = if r = 0 then 0 else if r = rd then v else s.readReg r

/-- Every word of data memory reads as before. -/
def SameMemory (s t : State) : Prop := ∀ a : Nat, memRead t.dmem a = memRead s.dmem a

/-- The word at `ea` reads `v`, and every word elsewhere reads as before (R44). -/
def OnlyWord (ea : Word) (v : Word) (s t : State) : Prop :=
  ∀ a : Nat, memRead t.dmem a = if a = ea.toNat then v else memRead s.dmem a

/-- The instruction store and the parameters are unchanged (R30, R35). -/
def SameProgram (s t : State) : Prop := t.imem = s.imem ∧ t.params = s.params

/-- An aligned pc whose word number is inside the instruction store holds the word `w` (R41). -/
def FetchesWord (s : State) (w : Word) : Prop := s.pc.toNat % 4 = 0 ∧ s.imem[s.pc.toNat / 4]? = some w

/-- The engine takes a step, and the word it fetches decodes to `i`. -/
def RunsNext (s : State) (i : Instr) : Prop := s.run = .running ∧ ∃ w, FetchesWord s w ∧ decode w = .ok i

/-- The invariant: register 0 holds 0, the pc is even, data memory is in its canonical form (R21, R35, R47). -/
def Inv (s : State) : Prop := s.regs.get 0 = 0 ∧ s.pc.toNat % 2 = 0 ∧ Memory.wf s.dmem = true

/-- One of the seven opcodes of R77. -/
def isSupportedOpcode (op : BitVec 7) : Prop :=
  op = 0b0110011#7 ∨ op = 0b0010011#7 ∨ op = 0b0000011#7 ∨ op = 0b1100111#7 ∨ op = 0b0100011#7 ∨ op = 0b1100011#7
    ∨ op = 0b1101111#7

/-- What the run state tells of a state once the run has ended: each ending is explained by the pc, the program and the
registers as they stand (R106, R150, R133, R101). -/
def RunExplained (s : State) : Prop :=
  match s.run with
  | .running => True
  | .halted => FetchesWord s 0x00000063#32
  | .exhausted => s.pc.toNat % 4 = 0 ∧ s.imem.length ≤ s.pc.toNat / 4
  | .faulted (.misalignedPC a) => a = s.pc ∧ a.toNat % 4 ≠ 0
  | .faulted (.unsupportedOpcode op) => ∃ w, FetchesWord s w ∧ op = opcodeOf w ∧ ¬ isSupportedOpcode op
  | .faulted (.unsupportedFunction w) =>
    FetchesWord s w ∧ isSupportedOpcode (opcodeOf w)
      ∧ ∀ i, decode w = .ok i → mnemonicOf i = .blt ∧ s.params.bltMode = .fault
  | .faulted (.misalignedAccess ea) =>
    ea.toNat % 4 ≠ 0 ∧ ∃ w, FetchesWord s w ∧
      ∃ (r b : Reg) (n : Int), (decode w = .ok (.lw r b n) ∨ decode w = .ok (.sw r b n)) ∧ ea = effectiveAddress s b n

/-! ## The shapes of an instruction's effect: each says that the instruction completes, and everything it changes -/

/-- `i` completes at `s`, writing `v` to `rd` and moving on: nothing else changes (R104). -/
def WritesAndAdvances (i : Instr) (rd : Reg) (v : Word) (s : State) : Prop :=
  ∃ t, exec i s = .next t ∧ OnlyReg rd v s t ∧ t.pc = s.pc + 4 ∧ SameMemory s t ∧ t.run = s.run ∧ SameProgram s t

/-- `i` completes at `s`, writing `v` to the word at `ea` and moving on: nothing else changes (R104). -/
def StoresAndAdvances (i : Instr) (ea v : Word) (s : State) : Prop :=
  ∃ t, exec i s = .next t ∧ OnlyWord ea v s t ∧ SameRegs s t ∧ t.pc = s.pc + 4 ∧ t.run = s.run ∧ SameProgram s t

/-- `i` completes at `s`, going to `target` with the run state `run`: no register and no memory word changes (R134). -/
def GoesTo (i : Instr) (target : Word) (run : RunState) (s : State) : Prop :=
  ∃ t, exec i s = .next t ∧ t.pc = target ∧ t.run = run ∧ SameRegs s t ∧ SameMemory s t ∧ SameProgram s t

/-- `i` completes at `s`, writing the link `pc + 4` to `rd` and going to `target`: nothing else changes (R142). -/
def LinksAndGoesTo (i : Instr) (rd : Reg) (target : Word) (s : State) : Prop :=
  ∃ t, exec i s = .next t ∧ t.pc = target ∧ OnlyReg rd (s.pc + 4) s t ∧ SameMemory s t ∧ t.run = s.run ∧ SameProgram s t

/-- The state carries no fault. -/
def NoFault (t : State) : Prop := ∀ r, t.run ≠ .faulted r

/-- The registers an instruction reads (R22). -/
def sources : Instr → List Reg
  | .add _ rs1 rs2 => [rs1, rs2]
  | .sub _ rs1 rs2 => [rs1, rs2]
  | .slt _ rs1 rs2 => [rs1, rs2]
  | .srl _ rs1 rs2 => [rs1, rs2]
  | .or _ rs1 rs2 => [rs1, rs2]
  | .and _ rs1 rs2 => [rs1, rs2]
  | .addi _ rs1 _ => [rs1]
  | .lw _ rs1 _ => [rs1]
  | .jalr _ rs1 _ => [rs1]
  | .sw rs2 rs1 _ => [rs1, rs2]
  | .beq rs1 rs2 _ => [rs1, rs2]
  | .bne rs1 rs2 _ => [rs1, rs2]
  | .blt rs1 rs2 _ => [rs1, rs2]
  | .jal _ _ => []

/-- The register an instruction writes, if it writes one (R22). -/
def destination : Instr → Option Reg
  | .add rd _ _ => some rd
  | .sub rd _ _ => some rd
  | .slt rd _ _ => some rd
  | .srl rd _ _ => some rd
  | .or rd _ _ => some rd
  | .and rd _ _ => some rd
  | .addi rd _ _ => some rd
  | .lw rd _ _ => some rd
  | .jalr rd _ _ => some rd
  | .jal rd _ => some rd
  | .sw _ _ _ => none
  | .beq _ _ _ => none
  | .bne _ _ _ => none
  | .blt _ _ _ => none

/-- The instruction is a branch with the offset `off`, and its condition holds at `s`; BLT has one only where `BLT_MODE`
is `signed_lt` (R130, R131, R132). -/
def TakesBranch (i : Instr) (off : Int) (s : State) : Prop :=
  ∃ rs1 rs2 : Reg, i = .beq rs1 rs2 off ∧ s.readReg rs1 = s.readReg rs2
    ∨ i = .bne rs1 rs2 off ∧ s.readReg rs1 ≠ s.readReg rs2
    ∨ i = .blt rs1 rs2 off ∧ s.params.bltMode = .signedLt ∧ (s.readReg rs1).toInt < (s.readReg rs2).toInt

/-- Branches, JAL and JALR: the instructions whose next pc is not `pc + 4` (R104). -/
def maySetPc : Instr → Bool
  | .beq _ _ _ => true
  | .bne _ _ _ => true
  | .blt _ _ _ => true
  | .jal _ _ => true
  | .jalr _ _ _ => true
  | .add _ _ _ => false
  | .sub _ _ _ => false
  | .slt _ _ _ => false
  | .srl _ _ _ => false
  | .or _ _ _ => false
  | .and _ _ _ => false
  | .addi _ _ _ => false
  | .lw _ _ _ => false
  | .sw _ _ _ => false

/-! ## The spec's own numbers, written out apart from the decoder -/

/-- The `mask` column of R79. -/
def tableMask : Mnemonic → Word
  | .add | .sub | .slt | .srl | .or | .and => 0xFE00707F#32
  | .addi | .lw | .jalr | .sw | .beq | .bne | .blt => 0x0000707F#32
  | .jal => 0x0000007F#32

/-- The `match` column of R79. -/
def tableMatch : Mnemonic → Word
  | .add => 0x00000033#32
  | .sub => 0x40000033#32
  | .slt => 0x00002033#32
  | .srl => 0x00005033#32
  | .or => 0x00006033#32
  | .and => 0x00007033#32
  | .addi => 0x00000013#32
  | .lw => 0x00002003#32
  | .jalr => 0x00000067#32
  | .sw => 0x00002023#32
  | .beq => 0x00000063#32
  | .bne => 0x00001063#32
  | .blt => 0x00004063#32
  | .jal => 0x0000006F#32

/-- `w & mask = match` for the row of a mnemonic (R79). -/
def inRow (m : Mnemonic) (w : Word) : Prop := w &&& tableMask m = tableMatch m

/-- The encoding line of a format R rule, `funct7 rs2 rs1 funct3 rd 0110011`, as a number (R62, R68, R110). -/
def encodingR (funct7 : Nat) (rs2 rs1 : Reg) (funct3 : Nat) (rd : Reg) : Word :=
  BitVec.ofNat 32 (funct7 * 2 ^ 25 + rs2.val * 2 ^ 20 + rs1.val * 2 ^ 15 + funct3 * 2 ^ 12 + rd.val * 2 ^ 7 + 0b0110011)

end Sys2Proof.Machine
end

