-- ==== Sys2Proof/Certificates/Slice0/Obligations.lean ====
section
/-! DEFINITION. The statements about the machine, from the numbered rules of spec/. Where a docstring says "the spec's
choice", the rule rests on a decision D<n> of 92_eei_decisions.md or on general knowledge the spec marks. -/

open Sys2Proof Sys2Proof.Machine

/-! ## Encoding and decoding -/

/-- Words printed in 95_test_vectors.md (tables E1 to E5 and D2) decode to the instructions printed beside them: one per
row of the instruction table, and both corner immediates of each of the formats I, S, B and J. The words rest on the
numbers D1 and G3, the spec's general knowledge (log entry 7). -/
def Obligations.PrintedWordsDecode : Prop :=
  decode 0x00A505B3#32 = .ok (.add 11 10 10) ∧ decode 0x40A58633#32 = .ok (.sub 12 11 10)
    ∧ decode 0x007322B3#32 = .ok (.slt 5 6 7) ∧ decode 0x007352B3#32 = .ok (.srl 5 6 7)
    ∧ decode 0x007362B3#32 = .ok (.or 5 6 7) ∧ decode 0x007372B3#32 = .ok (.and 5 6 7)
    ∧ decode 0xFFF28293#32 = .ok (.addi 5 5 (-1)) ∧ decode 0xFFC3A503#32 = .ok (.lw 10 7 (-4))
    ∧ decode 0xFFE280E7#32 = .ok (.jalr 1 5 (-2)) ∧ decode 0x02B12223#32 = .ok (.sw 11 2 36)
    ∧ decode 0x7E208FE3#32 = .ok (.beq 1 2 4094) ∧ decode 0xFE029CE3#32 = .ok (.bne 5 0 (-8))
    ∧ decode 0x00B54863#32 = .ok (.blt 10 11 16) ∧ decode 0x344122EF#32 = .ok (.jal 5 74564)
    ∧ decode 0x80208063#32 = .ok (.beq 1 2 (-4096)) ∧ decode 0x800000EF#32 = .ok (.jal 1 (-1048576))
    ∧ decode 0x7FF10093#32 = .ok (.addi 1 2 2047) ∧ decode 0x80010093#32 = .ok (.addi 1 2 (-2048))
    ∧ decode 0x7FFFAFA3#32 = .ok (.sw 31 31 2047) ∧ decode 0x80112023#32 = .ok (.sw 1 2 (-2048))
    ∧ decode 0x7FFFF0EF#32 = .ok (.jal 1 1048574)

/-- Every well-formed instruction has a word, and the word decodes to exactly it: S1 of 95_test_vectors.md with the
even offsets of C3. -/
def Obligations.DecodeOfEncodeIsTheInstruction : Prop :=
  ∀ i : Instr, i.wellFormed = true → ∃ w, encode i = .ok w ∧ decode w = .ok i

/-- A word that decodes is the word of the instruction it decodes to, which is well-formed: no bit of a word is lost
(the second direction of R78, an inference the spec marks as derived). -/
def Obligations.EncodeOfDecodeIsTheWord : Prop :=
  ∀ (w : Word) (i : Instr), decode w = .ok i → i.wellFormed = true ∧ encode i = .ok w

/-- The round trip of the two blocks, for any 7-bit opcode in any format (R78, C3): the decoder gives back every field
the format has, and the immediate with bit 0 cleared for B and J; and where the opcode's own format is the one packed,
the delivered immediate is that one. Conversely the fields of a word whose opcode has a format pack to that word. -/
def Obligations.FieldsSurviveEncoding : Prop :=
  (∀ (r : Row) (x : EncoderInput) (w : Word), encodeFields r x = .ok w →
    (decodeFields w).opcode = r.opcode
      ∧ (r.fmt ≠ .J → (decodeFields w).funct3 = r.funct3)
      ∧ (r.fmt = .R → (decodeFields w).funct7 = r.funct7)
      ∧ (r.fmt = .R ∨ r.fmt = .I ∨ r.fmt = .J → (decodeFields w).rd = x.rd)
      ∧ (r.fmt ≠ .J → (decodeFields w).rs1 = x.rs1)
      ∧ (r.fmt = .R ∨ r.fmt = .S ∨ r.fmt = .B → (decodeFields w).rs2 = x.rs2)
      ∧ (r.fmt = .I ∨ r.fmt = .S → immOf r.fmt w = some x.imm)
      ∧ (r.fmt = .B ∨ r.fmt = .J → immOf r.fmt w = some (x.imm - x.imm % 2))
      ∧ (formatOf r.opcode = some r.fmt →
          (decodeFields w).fmt = some r.fmt ∧ (decodeFields w).imm = immOf r.fmt w)) ∧
  (∀ (w : Word) (fmt : Format), (decodeFields w).fmt = some fmt →
    encodeFields ⟨fmt, (decodeFields w).opcode, (decodeFields w).funct3, (decodeFields w).funct7⟩
      ⟨(decodeFields w).rd, (decodeFields w).rs1, (decodeFields w).rs2, (decodeFields w).imm.getD 0⟩ = .ok w)

/-- The numbers of R68, R69 and R70: formats R, I and S pack to the sums those rules print, for every opcode and every
immediate in range; format R never refuses. -/
def Obligations.FormatsRISPackToTheirSums : Prop :=
  ∀ (op : BitVec 7) (f3 : BitVec 3) (f7 : BitVec 7) (rd rs1 rs2 : Reg) (imm : Int),
    (∃ w, encodeFields ⟨.R, op, f3, f7⟩ ⟨rd, rs1, rs2, imm⟩ = .ok w ∧
      w.toNat = f7.toNat * 2 ^ 25 + rs2.val * 2 ^ 20 + rs1.val * 2 ^ 15 + f3.toNat * 2 ^ 12 + rd.val * 2 ^ 7 + op.toNat) ∧
    (-2048 ≤ imm → imm ≤ 2047 →
      (∃ w, encodeFields ⟨.I, op, f3, f7⟩ ⟨rd, rs1, rs2, imm⟩ = .ok w ∧
        w.toNat = (imm % 4096).toNat * 2 ^ 20 + rs1.val * 2 ^ 15 + f3.toNat * 2 ^ 12 + rd.val * 2 ^ 7 + op.toNat) ∧
      (∃ w, encodeFields ⟨.S, op, f3, f7⟩ ⟨rd, rs1, rs2, imm⟩ = .ok w ∧
        w.toNat = (imm % 4096).toNat / 2 ^ 5 * 2 ^ 25 + rs2.val * 2 ^ 20 + rs1.val * 2 ^ 15 + f3.toNat * 2 ^ 12
          + (imm % 4096).toNat % 32 * 2 ^ 7 + op.toNat))

/-- The numbers of R71 and R72, with the spec's choice D17 for odd immediates: formats B and J pack to the sums those
rules print, `u[0]` is in neither, and an odd immediate encodes as the even one below it. -/
def Obligations.FormatsBJPackToTheirSums : Prop :=
  ∀ (op : BitVec 7) (f3 : BitVec 3) (f7 : BitVec 7) (rd rs1 rs2 : Reg) (imm : Int),
    (-4096 ≤ imm → imm ≤ 4095 → ∃ w, encodeFields ⟨.B, op, f3, f7⟩ ⟨rd, rs1, rs2, imm⟩ = .ok w ∧
      (∀ u : Nat, u = (imm % 8192).toNat → w.toNat = u / 2 ^ 12 * 2 ^ 31 + u / 2 ^ 5 % 2 ^ 6 * 2 ^ 25 + rs2.val * 2 ^ 20
        + rs1.val * 2 ^ 15 + f3.toNat * 2 ^ 12 + u / 2 % 2 ^ 4 * 2 ^ 8 + u / 2 ^ 11 % 2 * 2 ^ 7 + op.toNat) ∧
      encodeFields ⟨.B, op, f3, f7⟩ ⟨rd, rs1, rs2, imm - imm % 2⟩ = .ok w) ∧
    (-1048576 ≤ imm → imm ≤ 1048575 → ∃ w, encodeFields ⟨.J, op, f3, f7⟩ ⟨rd, rs1, rs2, imm⟩ = .ok w ∧
      (∀ u : Nat, u = (imm % 2097152).toNat → w.toNat = u / 2 ^ 20 * 2 ^ 31 + u / 2 % 2 ^ 10 * 2 ^ 21
        + u / 2 ^ 11 % 2 * 2 ^ 20 + u / 2 ^ 12 % 2 ^ 8 * 2 ^ 12 + rd.val * 2 ^ 7 + op.toNat) ∧
      encodeFields ⟨.J, op, f3, f7⟩ ⟨rd, rs1, rs2, imm - imm % 2⟩ = .ok w)

/-- The encoder refuses exactly the immediates outside the format's range (R73, less the label clause D16). -/
def Obligations.EncoderRefusesExactlyOutOfRange : Prop :=
  ∀ (r : Row) (x : EncoderInput),
    (encodeFields r x = .error .immediateOutOfRange ↔
      match r.fmt with
      | .R => False
      | .I => x.imm < -2048 ∨ 2047 < x.imm
      | .S => x.imm < -2048 ∨ 2047 < x.imm
      | .B => x.imm < -4096 ∨ 4095 < x.imm
      | .J => x.imm < -1048576 ∨ 1048575 < x.imm) ∧
    (encodeFields r x ≠ .error .immediateOutOfRange → ∃ w, encodeFields r x = .ok w)

/-- The immediates of R76 as arithmetic on the word's number: which bits weigh what, the sign in word bit 31, the
ranges, bit 0 of B and J zero, and the one delivered is that of the word's own format. -/
def Obligations.DecodedImmediatesAreTheirBits : Prop :=
  ∀ (w : Word) (n sign : Nat), n = w.toNat → sign = n / 2 ^ 31 →
    immI w = (n / 2 ^ 20 : Nat) - (sign * 4096 : Nat) ∧
    immS w = (n / 2 ^ 25 * 32 + n / 2 ^ 7 % 32 : Nat) - (sign * 4096 : Nat) ∧
    immB w = (sign * 4096 + n / 2 ^ 7 % 2 * 2048 + n / 2 ^ 25 % 64 * 32 + n / 2 ^ 8 % 16 * 2 : Nat) - (sign * 8192 : Nat) ∧
    immJ w = (sign * 1048576 + n / 2 ^ 12 % 256 * 4096 + n / 2 ^ 20 % 2 * 2048 + n / 2 ^ 21 % 1024 * 2 : Nat)
      - (sign * 2097152 : Nat) ∧
    (-2048 ≤ immI w ∧ immI w ≤ 2047) ∧ (-2048 ≤ immS w ∧ immS w ≤ 2047) ∧
    (-4096 ≤ immB w ∧ immB w ≤ 4094 ∧ immB w % 2 = 0) ∧ (-1048576 ≤ immJ w ∧ immJ w ≤ 1048574 ∧ immJ w % 2 = 0) ∧
    (decodeFields w).imm =
      match (decodeFields w).fmt with
      | none => none
      | some .R => none
      | some .I => some (immI w)
      | some .S => some (immS w)
      | some .B => some (immB w)
      | some .J => some (immJ w)

/-- The raw fields are the bits R75 names, for every word (that all six are always extracted is the spec's choice D15). -/
def Obligations.RawFieldsAreTheirBits : Prop :=
  ∀ w : Word,
    (decodeFields w).opcode.toNat = w.toNat % 2 ^ 7 ∧ (decodeFields w).rd.val = w.toNat / 2 ^ 7 % 2 ^ 5 ∧
    (decodeFields w).funct3.toNat = w.toNat / 2 ^ 12 % 2 ^ 3 ∧ (decodeFields w).rs1.val = w.toNat / 2 ^ 15 % 2 ^ 5 ∧
    (decodeFields w).rs2.val = w.toNat / 2 ^ 20 % 2 ^ 5 ∧ (decodeFields w).funct7.toNat = w.toNat / 2 ^ 25

/-- The seven opcodes with a format, and none for any other (R77, with the numbers of R79: D1 and G3, log
entry 7). -/
def Obligations.FormatIsChosenByOpcode : Prop :=
  formatOf 0b0110011#7 = some .R ∧ formatOf 0b0010011#7 = some .I ∧ formatOf 0b0000011#7 = some .I ∧
  formatOf 0b1100111#7 = some .I ∧ formatOf 0b0100011#7 = some .S ∧ formatOf 0b1100011#7 = some .B ∧
  formatOf 0b1101111#7 = some .J ∧ (∀ op, ¬ isSupportedOpcode op → formatOf op = none)

/-- A word is the instruction of a row exactly when `w & mask = match`, with the masks and matches R79 prints (its
numbers: D1 and G3, log entry 7); so no word is in two rows. -/
def Obligations.DecodingFollowsTheMasks : Prop :=
  (∀ (w : Word) (m : Mnemonic), (∃ i, decode w = .ok i ∧ mnemonicOf i = m) ↔ inRow m w) ∧
  (∀ (w : Word) (m m' : Mnemonic), inRow m w → inRow m' w → m = m')

/-- Every word in no row is rejected by one of two names: its opcode if that is none of the seven, else the whole word
(R82, R151, R153; the second name is the spec's choice D8, the numbers D1 and G3: log entry 7). -/
def Obligations.EveryOtherWordIsRejectedByName : Prop :=
  ∀ w : Word, (∀ m, ¬ inRow m w) →
    (¬ isSupportedOpcode (opcodeOf w) → decode w = .error (.unsupportedOpcode (opcodeOf w))) ∧
    (isSupportedOpcode (opcodeOf w) → decode w = .error (.unsupportedFunction w))

/-- The text form of a word has 32 characters, bit 31 first, and reads back as the word (R8, R92). -/
def Obligations.TextFormReadsBack : Prop :=
  ∀ w : Word, (wordText w).toList.length = 32 ∧
    (∀ k < 32, (wordText w).toList[k]? = some (if w.getLsbD (31 - k) then '1' else '0')) ∧ textWord (wordText w) = some w

/-! ## The step -/

/-- A step runs the decoded instruction: when the word at the pc decodes to `i`, the step is exactly `exec i`; the step
adds nothing around it. -/
def Obligations.StepRunsTheDecodedInstruction : Prop :=
  ∀ (s : State) (i : Instr), RunsNext s i → step s = exec i s

/-- A fetched word in no row ends the run in a fault that changes nothing else: `UnsupportedOpcode` with the opcode
value, or `UnsupportedFunction` with the word (R151, R152, R153; D8 and D13 are the spec's choices, the numbers D1 and G3: log
entry 7). -/
def Obligations.WordsInNoRowFault : Prop :=
  ∀ (s : State) (w : Word), s.run = .running → FetchesWord s w → (∀ m, ¬ inRow m w) →
    (¬ isSupportedOpcode (w.extractLsb' 0 7) →
      step s = .next { s with run := .faulted (.unsupportedOpcode (w.extractLsb' 0 7)) }) ∧
    (isSupportedOpcode (w.extractLsb' 0 7) → step s = .next { s with run := .faulted (.unsupportedFunction w) })

/-- A step at a pc that is no multiple of 4 faults before it fetches, and changes nothing else (R154, R152; the
spec's choices D6 and D13, log entry 7). -/
def Obligations.MisalignedPcFaults : Prop :=
  ∀ s : State, s.run = .running → s.pc.toNat % 4 ≠ 0 → step s = .next { s with run := .faulted (.misalignedPC s.pc) }

/-- An aligned pc past the last word ends the run as `Exhausted`: nothing else changes and no snapshot is shown (R101,
R105; the name is the spec's choice D5). -/
def Obligations.PcPastTheProgramExhausts : Prop :=
  ∀ s : State, s.run = .running → s.pc.toNat % 4 = 0 → s.imem.length ≤ s.pc.toNat / 4 →
    step s = .next { s with run := .exhausted } ∧ emitted s = none

/-- No step is taken once the run has ended, nothing more is shown, and the host is given the dump (R106; that the
model's step answers the fault `runEnded` there is the model's choice, log entry 4). -/
def Obligations.EndedRunTakesNoStep : Prop :=
  ∀ s : State, s.run ≠ .running →
    step s = .fault (.runEnded s.run) ∧ emitted s = none ∧ finalDump s = some (memoryDump s)

/-- A running machine always has a next state: the step is total, there is no refusal and no stuck state (R107 and the
end of part 1 of 93_implementation_defined.md). -/
def Obligations.RunningStepAlwaysHasNextState : Prop :=
  ∀ s : State, s.run = .running → ∃ t, step s = .next t

/-- A faulting step changes nothing but the run state (R152; the spec's choice D13). Nothing is said of snapshots: the
spec asks that no claim depend on them at a fault (U21). -/
def Obligations.FaultChangesOnlyTheRunState : Prop :=
  ∀ (s t : State) (r : FaultReason), step s = .next t → t.run = .faulted r →
    t = { s with run := .faulted r }

/-- A step ends `Halted` exactly when it fetched the one word `beq zero, zero, 0` (R133, whose last step the spec marks
as derived; the word with the numbers D1 and G3 of R79, log entry 7). -/
def Obligations.HaltExactlyOnTheVirtualHaltWord : Prop :=
  ∀ s t : State, step s = .next t →
    (t.run = .halted ↔ FetchesWord s 0x00000063#32) ∧ (t.run = .halted → t.pc = s.pc ∧ SameRegs s t ∧ SameMemory s t)

/-- One snapshot for every step that executes an instruction: the pc after it and the 32 registers, register 0 shown as
0; none for the exhaustion of the stream (R105). Nothing is said of a step that faults (U21, the spec's choice D13). -/
def Obligations.StepShowsOneSnapshot : Prop :=
  ∀ s t : State, step s = .next t →
    (t.run = .exhausted → emitted s = none) ∧
    (t.run ≠ .exhausted → NoFault t → ∃ o, emitted s = some o ∧ o.pc = t.pc ∧ o.regs.length = 32 ∧ o.regs[0]? = some 0 ∧
      ∀ r : Reg, o.regs[r.val]? = some (t.readReg r))

/-! ## The instructions -/

/-- ADD (R111): the encoding line (its opcode and funct3 numbers are D1 and G3, the spec's general knowledge, log entry 7,
here and in the five statements below), the sum modulo `2^32`, `pc + 4`, and nothing else. -/
def Obligations.AddWritesTheSum : Prop :=
  ∀ (rd rs1 rs2 : Reg) (s : State), decode (encodingR 0b0000000 rs2 rs1 0b000 rd) = .ok (.add rd rs1 rs2) ∧
    WritesAndAdvances (.add rd rs1 rs2) rd
      (BitVec.ofNat 32 (((s.readReg rs1).toNat + (s.readReg rs2).toNat) % 2 ^ 32)) s

/-- SUB (R112): the difference modulo `2^32`, first source less second (the order is the spec's general knowledge G6,
the encoding line's numbers D1 and G3: log entry 7). -/
def Obligations.SubWritesTheDifference : Prop :=
  ∀ (rd rs1 rs2 : Reg) (s : State), decode (encodingR 0b0100000 rs2 rs1 0b000 rd) = .ok (.sub rd rs1 rs2) ∧
    WritesAndAdvances (.sub rd rs1 rs2) rd
      (BitVec.ofInt 32 (((s.readReg rs1).toNat - (s.readReg rs2).toNat : Int) % 2 ^ 32)) s

/-- SLT (R113): 1 if the first source is less as a two's-complement number, else 0 (signed is the spec's choice
D10, the encoding line's numbers D1 and G3: log entry 7). -/
def Obligations.SltWritesTheSignedComparison : Prop :=
  ∀ (rd rs1 rs2 : Reg) (s : State), decode (encodingR 0b0000000 rs2 rs1 0b010 rd) = .ok (.slt rd rs1 rs2) ∧
    WritesAndAdvances (.slt rd rs1 rs2) rd (if (s.readReg rs1).toInt < (s.readReg rs2).toInt then 1 else 0) s

/-- SRL (R114): the first source divided by 2 to the low 5 bits of the second (amount and fill are the spec's choice
D11, the encoding line's numbers D1 and G3: log entry 7). -/
def Obligations.SrlShiftsByTheLowFiveBits : Prop :=
  ∀ (rd rs1 rs2 : Reg) (s : State), decode (encodingR 0b0000000 rs2 rs1 0b101 rd) = .ok (.srl rd rs1 rs2) ∧
    WritesAndAdvances (.srl rd rs1 rs2) rd
      (BitVec.ofNat 32 ((s.readReg rs1).toNat / 2 ^ ((s.readReg rs2).toNat % 32))) s

/-- OR (R115): the encoding line (numbers D1 and G3, log entry 7), the bitwise or, `pc + 4`, and nothing else. -/
def Obligations.OrWritesTheBitwiseOr : Prop :=
  ∀ (rd rs1 rs2 : Reg) (s : State), decode (encodingR 0b0000000 rs2 rs1 0b110 rd) = .ok (.or rd rs1 rs2) ∧
    ∃ v : Word, (∀ k, v.getLsbD k = ((s.readReg rs1).getLsbD k || (s.readReg rs2).getLsbD k)) ∧
      WritesAndAdvances (.or rd rs1 rs2) rd v s

/-- AND (R116): the encoding line (numbers D1 and G3, log entry 7), the bitwise and, `pc + 4`, and nothing else. -/
def Obligations.AndWritesTheBitwiseAnd : Prop :=
  ∀ (rd rs1 rs2 : Reg) (s : State), decode (encodingR 0b0000000 rs2 rs1 0b111 rd) = .ok (.and rd rs1 rs2) ∧
    ∃ v : Word, (∀ k, v.getLsbD k = ((s.readReg rs1).getLsbD k && (s.readReg rs2).getLsbD k)) ∧
      WritesAndAdvances (.and rd rs1 rs2) rd v s

/-- ADDI (R120): the source plus the signed immediate modulo `2^32`, `pc + 4`, and nothing else. -/
def Obligations.AddiWritesTheSum : Prop :=
  ∀ (rd rs1 : Reg) (imm : Int) (s : State),
    WritesAndAdvances (.addi rd rs1 imm) rd (BitVec.ofInt 32 (((s.readReg rs1).toNat + imm) % 2 ^ 32)) s

/-- The one addressing mode (R127, R42): base plus displacement modulo `2^32`, the same for LW and SW. -/
def Obligations.EffectiveAddressWraps : Prop :=
  ∀ (s : State) (rs1 : Reg) (imm : Int),
    ((effectiveAddress s rs1 imm).toNat : Int) = ((s.readReg rs1).toNat + imm) % 2 ^ 32

/-- LW at an aligned effective address (R125): the word there, 0 if never written, goes to `rd`, `pc + 4`, and nothing
else changes. -/
def Obligations.LwLoadsTheAlignedWord : Prop :=
  ∀ (rd rs1 : Reg) (imm : Int) (s : State), (effectiveAddress s rs1 imm).toNat % 4 = 0 →
    WritesAndAdvances (.lw rd rs1 imm) rd (memRead s.dmem (effectiveAddress s rs1 imm).toNat) s

/-- SW at an aligned effective address (R126): the word there becomes `x[rs2]`, `pc + 4`, and nothing else changes. -/
def Obligations.SwStoresTheAlignedWord : Prop :=
  ∀ (rs2 rs1 : Reg) (imm : Int) (s : State), (effectiveAddress s rs1 imm).toNat % 4 = 0 →
    StoresAndAdvances (.sw rs2 rs1 imm) (effectiveAddress s rs1 imm) (s.readReg rs2) s

/-- LW and SW at any other effective address fault, recording it, and change nothing else (R155, R46, R152; the spec's
choices D7 and D13, log entry 7). -/
def Obligations.MisalignedAccessFaults : Prop :=
  ∀ (r rs1 : Reg) (imm : Int) (s : State) (ea : Word), ea = effectiveAddress s rs1 imm → ea.toNat % 4 ≠ 0 →
    exec (.lw r rs1 imm) s = .next { s with run := .faulted (.misalignedAccess ea) } ∧
    exec (.sw r rs1 imm) s = .next { s with run := .faulted (.misalignedAccess ea) }

/-- BEQ (R130): to its own address plus the offset if all 32 bits are equal, else `pc + 4`; the run state becomes
`Halted` exactly on the virtual halt; no register and no memory word changes. That the pc wraps is the spec's choice D12
(log entry 7). -/
def Obligations.BeqBranchesOnEqual : Prop :=
  ∀ (rs1 rs2 : Reg) (off : Int) (s : State),
    GoesTo (.beq rs1 rs2 off)
      (if s.readReg rs1 = s.readReg rs2 then BitVec.ofInt 32 ((s.pc.toNat + off) % 2 ^ 32) else s.pc + 4)
      (if off = 0 ∧ rs1 = 0 ∧ rs2 = 0 then .halted else s.run) s

/-- BNE (R131): to its own address plus the offset if some bit differs, else `pc + 4`; it never halts; no register and
no memory word changes. That the pc wraps is the spec's choice D12 (log entry 7). -/
def Obligations.BneBranchesOnDifferent : Prop :=
  ∀ (rs1 rs2 : Reg) (off : Int) (s : State),
    GoesTo (.bne rs1 rs2 off)
      (if s.readReg rs1 = s.readReg rs2 then s.pc + 4 else BitVec.ofInt 32 ((s.pc.toNat + off) % 2 ^ 32)) s.run s

/-- BLT with `BLT_MODE = signed_lt` (R132; the spec's choices D9, G9 and, for the wrap of the pc, D12, log entry 7): branch
on signed less, never a halt, nothing else changes. -/
def Obligations.BltBranchesOnSignedLess : Prop :=
  ∀ (rs1 rs2 : Reg) (off : Int) (s : State), s.params.bltMode = .signedLt →
    GoesTo (.blt rs1 rs2 off)
      (if (s.readReg rs1).toInt < (s.readReg rs2).toInt then BitVec.ofInt 32 ((s.pc.toNat + off) % 2 ^ 32)
        else s.pc + 4) s.run s

/-- BLT with `BLT_MODE = fault`, as a step (R132, R153; the spec's choices D9 and D13, log entry 7): the fault records the fetched word
itself and changes nothing else. -/
def Obligations.BltFaultsWithItsWord : Prop :=
  ∀ (s : State) (w : Word) (rs1 rs2 : Reg) (off : Int), s.params.bltMode = .fault → s.run = .running →
    FetchesWord s w → decode w = .ok (.blt rs1 rs2 off) →
    step s = .next { s with run := .faulted (.unsupportedFunction w) }

/-- JAL (R140, R142): the link `pc + 4` to `rd`, and on to the jump's own address plus the offset modulo `2^32`
(the wrap of pc and link is the spec's choice D12, log entry 7). -/
def Obligations.JalLinksAndJumps : Prop :=
  ∀ (rd : Reg) (off : Int) (s : State),
    LinksAndGoesTo (.jal rd off) rd (BitVec.ofInt 32 ((s.pc.toNat + off) % 2 ^ 32)) s

/-- JALR (R141, C2): the sum modulo `2^32`, of the register's value before the step, less its last bit; the link
`pc + 4` to `rd` (its wrap is the spec's choice D12, log entry 7). -/
def Obligations.JalrLinksAndJumpsToTheEvenSum : Prop :=
  ∀ (rd rs1 : Reg) (imm : Int) (s : State) (sum : Int), sum = ((s.readReg rs1).toNat + imm) % 2 ^ 32 →
    LinksAndGoesTo (.jalr rd rs1 imm) rd (BitVec.ofInt 32 (sum - sum % 2)) s

/-! ## Rules of the whole machine -/

/-- Register 0 (R21): it reads 0 always, a write to it changes nothing, an executed instruction leaves 0 stored in it
whatever it held, and a step of a machine in which it held 0 leaves it 0. R21 lets a model discard the write or re-pin;
that this one does both is log entry 6 (DEDUCED). -/
def Obligations.RegisterZeroIsHardWired : Prop :=
  (∀ s : State, s.readReg 0 = 0) ∧ (∀ (s : State) (v : Word), s.writeReg 0 v = s) ∧
  (∀ (i : Instr) (s t : State), exec i s = .next t → NoFault t → t.regs.get 0 = 0) ∧
  (∀ s t : State, step s = .next t → s.regs.get 0 = 0 → t.regs.get 0 = 0)

/-- Write-back (R104): SW writes the one word at its effective address, every other instruction no word; an instruction
changes no register but its own destination, and SW and the branches have none. Then register 0 is re-pinned (that it is
stored as 0 whatever it held: log entry 6, DEDUCED), and the next pc is `pc + 4` but for a branch that is taken, JAL and
JALR, which go to their targets (modulo `2^32`: the spec's choice D12, log entry 7). -/
def Obligations.AtMostOneWriteBack : Prop :=
  ∀ (i : Instr) (s t : State), exec i s = .next t → NoFault t →
    (∀ rs2 rs1 imm, i = .sw rs2 rs1 imm → OnlyWord (effectiveAddress s rs1 imm) (s.readReg rs2) s t) ∧
    (mnemonicOf i ≠ .sw → SameMemory s t) ∧
    (∀ r : Reg, destination i ≠ some r → t.readReg r = s.readReg r) ∧
    t.regs.get 0 = 0 ∧
    (∀ off, TakesBranch i off s → t.pc = s.pc + BitVec.ofInt 32 off) ∧
    (∀ rd off, i = .jal rd off → t.pc = s.pc + BitVec.ofInt 32 off) ∧
    (∀ rd rs1 imm, i = .jalr rd rs1 imm → t.pc = indirectTarget s rs1 imm) ∧
    ((∀ off, ¬ TakesBranch i off s) → mnemonicOf i ≠ .jal → mnemonicOf i ≠ .jalr → t.pc = s.pc + 4)

/-- The instruction store and the parameters are the same for the whole run: no step changes them, so no store reaches
a fetch (R54, an inference the spec marks as derived, and its choice D22, log entry 7; R30, R35). -/
def Obligations.NoStepChangesTheProgram : Prop :=
  ∀ s t : State, step s = .next t → t.imem = s.imem ∧ t.params = s.params

/-- Only SW writes data memory (R31, R48): after any other instruction it is the same. -/
def Obligations.OnlySwWritesMemory : Prop :=
  ∀ (i : Instr) (s t : State), exec i s = .next t → mnemonicOf i ≠ .sw → t.dmem = s.dmem

/-- Only LW reads data memory (R31, R48): any other instruction does the same to pc, registers and run state whatever
memory holds, and each word of memory either reads the same after both runs or is one that neither has changed. -/
def Obligations.OnlyLwReadsMemory : Prop :=
  ∀ (i : Instr) (s : State) (m : Memory), mnemonicOf i ≠ .lw →
    ∃ t u, exec i s = .next t ∧ exec i { s with dmem := m } = .next u ∧ u.pc = t.pc ∧ u.regs = t.regs ∧ u.run = t.run ∧
      ∀ a : Nat, memRead u.dmem a = memRead t.dmem a ∨
        (memRead t.dmem a = memRead s.dmem a ∧ memRead u.dmem a = memRead m a)

/-- An instruction reads no register but its sources (R22): two machines that agree on pc, memory, parameters, run state
and those registers agree on the next pc, memory and run state, and each register either reads the same in both or is
one neither has changed. -/
def Obligations.InstructionReadsOnlyItsSources : Prop :=
  ∀ (i : Instr) (s u : State), u.pc = s.pc → u.dmem = s.dmem → u.params = s.params → u.run = s.run →
    (∀ r ∈ sources i, u.readReg r = s.readReg r) →
    ∃ s' u', exec i s = .next s' ∧ exec i u = .next u' ∧ u'.pc = s'.pc ∧ u'.dmem = s'.dmem ∧ u'.run = s'.run ∧
      ∀ r : Reg, u'.readReg r = s'.readReg r ∨ (s'.readReg r = s.readReg r ∧ u'.readReg r = u.readReg r)

/-- Data memory (R43, R44): a read gives the last value written to its address among any sequence of writes since reset,
and 0 if there was none. -/
def Obligations.ReadGivesTheLastWrite : Prop :=
  ∀ (ws : List (Nat × Word)) (a : Nat),
    memRead (ws.foldl (fun m c => memWrite m c.1 c.2) []) a =
      match ws.reverse.find? (fun c => c.1 == a) with
      | some c => c.2
      | none => 0

/-- The invariant at reset (R34, R35), for every parameter and every program, and at `State.reset`. Its last part, the
canonical form of data memory, is the model's choice (log entry 5, DESIGN CHOICE). -/
def Obligations.ResetMeetsTheInvariant : Prop :=
  (∀ (p : Params) (m : List Word), Inv (State.resetWith p m)) ∧ Inv State.reset

/-- Every step keeps the invariant: register 0 holds 0, the pc is even, data memory is canonical (R35, R21, R47; the
canonical form is the model's choice, log entry 5). -/
def Obligations.StepKeepsTheInvariant : Prop :=
  ∀ s t : State, Inv s → step s = .next t → Inv t

/-- Every ending says what the state shows, after every step: `Halted` stands on the virtual halt word, `Exhausted` past
the program, each fault on the word, pc or address it records (R106, R133, R150 to R155). It rests on the spec's choices
D5 (`Exhausted`), D6 (`MisalignedPC`), D7 (`MisalignedAccess`), D8 (`UnsupportedFunction`), D9 (BLT) and D13 (a fault
changes nothing else), and on the numbers D1 and G3 of the halt word and the seven opcodes: log entry 7, PRESUMED. -/
def Obligations.StepExplainsTheRunState : Prop :=
  ∀ s t : State, step s = .next t → RunExplained t

/-- A machine whose pc is even faults with `MisalignedPC` only at a pc that is 2 modulo 4 (R154, R47; the fault is the
spec's choice D6, log entry 7). -/
def Obligations.MisalignedPcIsTwoModFour : Prop :=
  ∀ (s t : State) (a : Word), s.pc.toNat % 2 = 0 → step s = .next t → t.run = .faulted (.misalignedPC a) →
    a = s.pc ∧ s.pc.toNat % 4 = 2

/-! ## Reset, the host and the assembler layer -/

/-- Reset (R34, R170): pc 0, register 0 and every register but the stack pointer 0, the stack pointer `SP_INIT`, memory
0 everywhere, `Running`, the program kept. `SP_INIT` is open (log entry 1: a constant with no body), so this says it for
every value; that the index is 2 is the spec's choice D3. -/
def Obligations.ResetLeavesTheStatedState : Prop :=
  ∀ (p : Params) (m : List Word) (s : State), s = State.resetWith p m →
    s.pc = 0 ∧ s.readReg 2 = p.spInit ∧ (∀ r : Reg, r ≠ 2 → s.regs.get r = 0 ∧ s.readReg r = 0) ∧
    (∀ a, memRead s.dmem a = 0) ∧ s.run = .running ∧ s.imem = m ∧ s.params = p ∧
    State.reset = State.resetWith Config.params []

/-- Reset at any time, from any run state, gives the same state and keeps the program (R170, the spec's choice D23), and
the first step after it fetches word 0 (R171). -/
def Obligations.ResetWorksFromEveryState : Prop :=
  ∀ s : State, s.applyReset = State.resetWith s.params s.imem ∧
    (∀ w i, s.imem[0]? = some w → decode w = .ok i → step s.applyReset = exec i s.applyReset) ∧
    (s.imem = [] → step s.applyReset = .next s.applyReset.exhaust)

/-- The dump: `DUMP_WORDS` words from `DUMP_BASE`, 4 bytes apart, given once the run has ended and not before (R33, R106;
the window is open, log entry 1, so this says it for every window). For a window that is misaligned or leaves the data
space, that addresses are not wrapped and read 0 there is the model's choice (log entry 9, DESIGN CHOICE, unsafe). -/
def Obligations.DumpShowsTheWindow : Prop :=
  ∀ s : State, (memoryDump s).length = s.params.dumpWords ∧
    (∀ k < s.params.dumpWords, (memoryDump s)[k]? = some (memRead s.dmem (s.params.dumpBase.toNat + 4 * k))) ∧
    (s.run = .running → finalDump s = none) ∧ (s.run ≠ .running → finalDump s = some (memoryDump s))

/-- Labels (R84, R89): a label defined once names 4 times the number of instruction lines before it, and the `k`-th
output of the assembler, where instruction line `k` is a jal, beq, bne or blt to that label, is the encoding of the
instruction with the label's address less `4 * k` as its offset (range-checked after resolution, the spec's choice
D16). -/
def Obligations.LabelOffsetIsTargetLessOwnAddress : Prop :=
  ∀ (pre post : List Line) (n : String) (ins : Option (String × List Operand)) (ls : List Line) (a : Int),
    ls = pre ++ ⟨some n, ins⟩ :: post → (∀ l ∈ pre ++ post, l.label ≠ some n) →
    a = 4 * (pre.filter fun l => l.instr.isSome).length →
    labelAddress (scanLabels 0 ls) n = .ok a ∧
    (∀ own, targetSlot (scanLabels 0 ls) own (.name n) = .ok (a - own)) ∧
    ∀ (k : Nat) (mn : String) (ops : List Operand) (i : Instr), (ls.filterMap (·.instr))[k]? = some (mn, ops) →
      ((∃ rd r, registerOf rd = some r ∧ mn = "jal" ∧ ops = [.name rd, .name n] ∧ i = .jal r (a - 4 * k)) ∨
        ∃ x y rs1 rs2, registerOf x = some rs1 ∧ registerOf y = some rs2 ∧ ops = [.name x, .name y, .name n] ∧
          (mn = "beq" ∧ i = .beq rs1 rs2 (a - 4 * k) ∨ mn = "bne" ∧ i = .bne rs1 rs2 (a - 4 * k) ∨
            mn = "blt" ∧ i = .blt rs1 rs2 (a - 4 * k))) →
      (∀ w, encode i = .ok w → (assemble ls)[k]? = some (.ok w)) ∧
      (encode i = .error .immediateOutOfRange → (assemble ls)[k]? = some (.error .immediateOutOfRange))

/-- A failing line blocks nothing (R84, R91, R92): one output per instruction line, and replacing one line's instruction
by any other, assembling or failing, changes no other output. -/
def Obligations.OneLineChangesNoOtherOutput : Prop :=
  ∀ (pre post : List Line) (label : Option String) (x y : String × List Operand) (k : Nat),
    k = (pre.filter fun l => l.instr.isSome).length →
    (assemble (pre ++ ⟨label, some x⟩ :: post)).length
      = ((pre ++ ⟨label, some x⟩ :: post).filter fun l => l.instr.isSome).length ∧
    (assemble (pre ++ ⟨label, some x⟩ :: post)).eraseIdx k = (assemble (pre ++ ⟨label, some y⟩ :: post)).eraseIdx k

/-- An assembled word is the encoding of an in-range instruction, never a truncation (R73; for labels the spec's choice
D16), and an unknown mnemonic is `UnknownInstruction` whatever its operands (R87; that the upper-case
spellings are unknown too is the model's choice, log entry 12). -/
def Obligations.AssembledWordIsAnEncoding : Prop :=
  (∀ (table : LabelTable) (own : Int) (mn : String) (ops : List Operand) (w : Word),
    assembleLine table own mn ops = .ok w → ∃ m i, mnemonicOfName mn = some m ∧ ops.length + 1 = tokenCount m ∧
      parseOperands table own m ops = .ok i ∧ encode i = .ok w) ∧
  (∀ (table : LabelTable) (own : Int) (mn : String) (ops : List Operand), (∀ m, spelling m ≠ mn) →
    assembleLine table own mn ops = .error .unknownInstruction)

/-- The register names (R23, the spec's choice D2): 32 names, entry `r` names register `r` and no other, and no other text
names a register (that upper case does not is the model's choice, log entry 12). -/
def Obligations.RegisterNamesAreDistinct : Prop :=
  registerNames.length = 32 ∧ ∀ (n : String) (r : Reg), registerOf n = some r ↔ registerNames[r.val]? = some n

/-! ## Runs under fuel -/

/-- Fuel is no part of the machine (R106, R108): a run that has ended within some fuel gives the same final state,
snapshots and dump for any more fuel; and one that is out of fuel is still running and has shown one snapshot per step. -/
def Obligations.FuelIsNoEnding : Prop :=
  ∀ (s : State) (j : Nat),
    (∀ t shown dump, runWithFuel j s = .ended t shown dump →
      t.run ≠ .running ∧ ∀ k, j ≤ k → runWithFuel k s = .ended t shown dump) ∧
    (∀ t shown, runWithFuel j s = .outOfFuel t shown → t.run = .running ∧ shown.length = j)

/-- A hang is an infinite execution (R108): a running machine on a taken branch to itself whose register fields are not
both 0, or on a JAL to itself, never ends: for any fuel it is out of fuel, still at the same pc. BLT is among the
branches where `BLT_MODE` is `signed_lt` (the spec's choice D9, log entry 7). -/
def Obligations.SelfTargetingLoopRunsForEver : Prop :=
  ∀ (s : State) (i : Instr), RunsNext s i → (TakesBranch i 0 s ∧ i ≠ .beq 0 0 0 ∨ ∃ rd, i = .jal rd 0) →
    RunsForEver s ∧ ∀ fuel, ∃ t shown, runWithFuel fuel s = .outOfFuel t shown ∧ t.pc = s.pc
end

