-- ==== Sys2Proof/Laws/State.lean ====
section
/-! SUPPORT. What each state update leaves in each field, and what register reads give after each update. -/

namespace Sys2Proof.Machine

/-! ## One lemma per field and update -/

@[simp] theorem State.repin_pc (s : State) : s.repin.pc = s.pc := rfl
@[simp] theorem State.repin_regs (s : State) : s.repin.regs = s.regs.set 0 0 := rfl
@[simp] theorem State.repin_dmem (s : State) : s.repin.dmem = s.dmem := rfl
@[simp] theorem State.repin_run (s : State) : s.repin.run = s.run := rfl
@[simp] theorem State.repin_imem (s : State) : s.repin.imem = s.imem := rfl
@[simp] theorem State.repin_params (s : State) : s.repin.params = s.params := rfl

@[simp] theorem State.retire_pc (s : State) (n : Word) : (s.retire n).pc = n := rfl
@[simp] theorem State.retire_regs (s : State) (n : Word) : (s.retire n).regs = s.regs.set 0 0 := rfl
@[simp] theorem State.retire_dmem (s : State) (n : Word) : (s.retire n).dmem = s.dmem := rfl
@[simp] theorem State.retire_run (s : State) (n : Word) : (s.retire n).run = s.run := rfl
@[simp] theorem State.retire_imem (s : State) (n : Word) : (s.retire n).imem = s.imem := rfl
@[simp] theorem State.retire_params (s : State) (n : Word) : (s.retire n).params = s.params := rfl

@[simp] theorem State.storeWord_pc (s : State) (a v : Word) : (s.storeWord a v).pc = s.pc := rfl
@[simp] theorem State.storeWord_regs (s : State) (a v : Word) : (s.storeWord a v).regs = s.regs := rfl
@[simp] theorem State.storeWord_dmem (s : State) (a v : Word) : (s.storeWord a v).dmem = memWrite s.dmem a.toNat v := rfl
@[simp] theorem State.storeWord_run (s : State) (a v : Word) : (s.storeWord a v).run = s.run := rfl
@[simp] theorem State.storeWord_imem (s : State) (a v : Word) : (s.storeWord a v).imem = s.imem := rfl
@[simp] theorem State.storeWord_params (s : State) (a v : Word) : (s.storeWord a v).params = s.params := rfl

@[simp] theorem State.raiseFault_pc (s : State) (r : FaultReason) : (s.raiseFault r).pc = s.pc := rfl
@[simp] theorem State.raiseFault_regs (s : State) (r : FaultReason) : (s.raiseFault r).regs = s.regs := rfl
@[simp] theorem State.raiseFault_dmem (s : State) (r : FaultReason) : (s.raiseFault r).dmem = s.dmem := rfl
@[simp] theorem State.raiseFault_run (s : State) (r : FaultReason) : (s.raiseFault r).run = .faulted r := rfl
@[simp] theorem State.raiseFault_imem (s : State) (r : FaultReason) : (s.raiseFault r).imem = s.imem := rfl
@[simp] theorem State.raiseFault_params (s : State) (r : FaultReason) : (s.raiseFault r).params = s.params := rfl

@[simp] theorem State.exhaust_pc (s : State) : s.exhaust.pc = s.pc := rfl
@[simp] theorem State.exhaust_regs (s : State) : s.exhaust.regs = s.regs := rfl
@[simp] theorem State.exhaust_dmem (s : State) : s.exhaust.dmem = s.dmem := rfl
@[simp] theorem State.exhaust_run (s : State) : s.exhaust.run = .exhausted := rfl
@[simp] theorem State.exhaust_imem (s : State) : s.exhaust.imem = s.imem := rfl
@[simp] theorem State.exhaust_params (s : State) : s.exhaust.params = s.params := rfl

@[simp] theorem State.halt_pc (s : State) : s.halt.pc = s.pc := rfl
@[simp] theorem State.halt_regs (s : State) : s.halt.regs = s.regs := rfl
@[simp] theorem State.halt_dmem (s : State) : s.halt.dmem = s.dmem := rfl
@[simp] theorem State.halt_run (s : State) : s.halt.run = .halted := rfl
@[simp] theorem State.halt_imem (s : State) : s.halt.imem = s.imem := rfl
@[simp] theorem State.halt_params (s : State) : s.halt.params = s.params := rfl

@[simp] theorem State.loadProgram_pc (s : State) (p : List Word) : (s.loadProgram p).pc = s.pc := rfl
@[simp] theorem State.loadProgram_regs (s : State) (p : List Word) : (s.loadProgram p).regs = s.regs := rfl
@[simp] theorem State.loadProgram_dmem (s : State) (p : List Word) : (s.loadProgram p).dmem = s.dmem := rfl
@[simp] theorem State.loadProgram_run (s : State) (p : List Word) : (s.loadProgram p).run = s.run := rfl
@[simp] theorem State.loadProgram_imem (s : State) (p : List Word) : (s.loadProgram p).imem = p := rfl
@[simp] theorem State.loadProgram_params (s : State) (p : List Word) : (s.loadProgram p).params = s.params := rfl
@[simp] theorem State.writeReg_pc (s : State) (r : Reg) (v : Word) : (s.writeReg r v).pc = s.pc := by
  unfold State.writeReg; split <;> rfl
@[simp] theorem State.writeReg_dmem (s : State) (r : Reg) (v : Word) : (s.writeReg r v).dmem = s.dmem := by
  unfold State.writeReg; split <;> rfl
@[simp] theorem State.writeReg_run (s : State) (r : Reg) (v : Word) : (s.writeReg r v).run = s.run := by
  unfold State.writeReg; split <;> rfl
@[simp] theorem State.writeReg_imem (s : State) (r : Reg) (v : Word) : (s.writeReg r v).imem = s.imem := by
  unfold State.writeReg; split <;> rfl
@[simp] theorem State.writeReg_params (s : State) (r : Reg) (v : Word) : (s.writeReg r v).params = s.params := by
  unfold State.writeReg; split <;> rfl

@[simp] theorem State.resetWith_pc (p : Params) (m : List Word) : (State.resetWith p m).pc = 0 := rfl
@[simp] theorem State.resetWith_dmem (p : Params) (m : List Word) : (State.resetWith p m).dmem = [] := rfl
@[simp] theorem State.resetWith_run (p : Params) (m : List Word) : (State.resetWith p m).run = .running := rfl
@[simp] theorem State.resetWith_imem (p : Params) (m : List Word) : (State.resetWith p m).imem = m := rfl
@[simp] theorem State.resetWith_params (p : Params) (m : List Word) : (State.resetWith p m).params = p := rfl

@[simp] theorem State.applyReset_pc (s : State) : s.applyReset.pc = 0 := rfl
@[simp] theorem State.applyReset_dmem (s : State) : s.applyReset.dmem = [] := rfl
@[simp] theorem State.applyReset_run (s : State) : s.applyReset.run = .running := rfl
@[simp] theorem State.applyReset_imem (s : State) : s.applyReset.imem = s.imem := rfl
@[simp] theorem State.applyReset_params (s : State) : s.applyReset.params = s.params := rfl

/-! ## Register reads -/

@[simp] theorem State.readReg_zero (s : State) : s.readReg 0 = 0 := rfl

theorem State.readReg_of_ne (s : State) (r : Reg) (h : r ≠ 0) : s.readReg r = s.regs.get r := by
  simp [State.readReg, h]

theorem State.readReg_congr (s t : State) (h : t.regs = s.regs) (r : Reg) : t.readReg r = s.readReg r := by
  simp [State.readReg, h]

/-- A write is seen at its register, at no other, and never at register 0. -/
theorem State.readReg_writeReg (s : State) (r q : Reg) (v : Word) :
    (s.writeReg r v).readReg q = if q = 0 then 0 else if q = r then v else s.readReg q := by
  by_cases hq : q = 0
  · simp [hq]
  by_cases hr : r = 0
  · simp [hq, hr, State.writeReg]
  by_cases h : q = r
  · subst h; simp [State.readReg, State.writeReg, hq, Vector.get_eq_getElem]
  · have hv : r.val ≠ q.val := fun e => h (Fin.ext e.symm)
    simp [State.readReg, State.writeReg, hq, hr, h, Vector.get_eq_getElem, hv]

@[simp] theorem State.readReg_repin (s : State) (q : Reg) : s.repin.readReg q = s.readReg q := by
  by_cases hq : q = 0
  · simp [hq]
  · have hv : (0 : Nat) ≠ q.val := fun e => hq (Fin.ext e.symm)
    simp [State.readReg, State.repin, hq, Vector.get_eq_getElem, hv]

@[simp] theorem State.readReg_retire (s : State) (n : Word) (q : Reg) : (s.retire n).readReg q = s.readReg q :=
  State.readReg_repin s q

@[simp] theorem State.readReg_storeWord (s : State) (a v : Word) (q : Reg) :
    (s.storeWord a v).readReg q = s.readReg q := rfl

@[simp] theorem State.readReg_raiseFault (s : State) (r : FaultReason) (q : Reg) :
    (s.raiseFault r).readReg q = s.readReg q := rfl

@[simp] theorem State.readReg_exhaust (s : State) (q : Reg) : s.exhaust.readReg q = s.readReg q := rfl

@[simp] theorem State.readReg_halt (s : State) (q : Reg) : s.halt.readReg q = s.readReg q := rfl

/-- Register 0 after a re-pin. -/
@[simp] theorem State.set_zero_get_zero (v : Vector Word 32) : (v.set 0 0#32).get 0 = 0 := by
  simp [Vector.get_eq_getElem]

/-- An executed instruction leaves register 0 stored as 0, whatever it held. -/
@[simp] theorem State.retire_get_zero (s : State) (n : Word) : (s.retire n).regs.get 0 = 0 := by
  simp [Vector.get_eq_getElem]

end Sys2Proof.Machine
end

