-- ==== Sys2Proof/Laws/Memory.lean ====
section
/-! SUPPORT. The laws of data memory: a read after a write, and every memory operation keeps the canonical form. -/

namespace Sys2Proof.Machine

theorem memRead_memErase (m : Memory) (a b : Nat) : memRead (memErase m a) b = if b = a then 0 else memRead m b := by
  induction m with
  | nil => simp [memErase, memRead]
  | cons c m ih =>
    obtain ⟨k, u⟩ := c
    by_cases hk : k = a
    · have e : memErase ((k, u) :: m) a = memErase m a := by simp [memErase, hk]
      rw [e, ih]
      by_cases hb : b = a
      · simp [hb]
      · have : k ≠ b := fun h => hb (h ▸ hk)
        simp [hb, memRead, this]
    · have e : memErase ((k, u) :: m) a = (k, u) :: memErase m a := by simp [memErase, hk]
      rw [e]
      by_cases hb : k = b
      · have : b ≠ a := fun h => hk (hb.trans h)
        simp [memRead, hb, this]
      · simp [memRead, hb, ih]

theorem memRead_memInsert (m : Memory) (a b : Nat) (v : Word) (h : memRead m a = 0) (hm : ∀ c ∈ m, c.1 ≠ a) :
    memRead (memInsert m a v) b = if b = a then v else memRead m b := by
  induction m with
  | nil =>
    by_cases hb : b = a
    · simp [memInsert, memRead, hb]
    · have : a ≠ b := fun e => hb e.symm
      simp [memInsert, memRead, hb, this]
  | cons c m ih =>
    obtain ⟨k, u⟩ := c
    have hk : k ≠ a := hm (k, u) (by simp)
    have ih := ih (by simpa [memRead, hk] using h) fun c hc => hm c (by simp [hc])
    by_cases hlt : a < k
    · simp only [memInsert, hlt, if_true]
      by_cases hb : b = a
      · simp [memRead, hb]
      · have : a ≠ b := fun e => hb e.symm
        simp [memRead, hb, this]
    · simp only [memInsert, hlt, if_false, memRead, ih]
      by_cases hkb : k = b
      · have : b ≠ a := fun e => hk (hkb.trans e)
        simp [hkb, this]
      · simp [hkb]

/-- A read after a write: the value written at its address, what was there before at every other (R43, R44). -/
theorem memRead_memWrite (m : Memory) (a b : Nat) (v : Word) :
    memRead (memWrite m a v) b = if b = a then v else memRead m b := by
  unfold memWrite
  split
  · next h => rw [memRead_memErase, h]
  · rw [memRead_memInsert, memRead_memErase]
    · by_cases hb : b = a <;> simp [hb]
    · simp [memRead_memErase]
    · intro c hc; simpa [memErase] using (List.mem_filter.mp hc).2

theorem risingFrom_mono {lo lo' : Nat} (h : lo ≤ lo') (m : Memory) (hm : risingFrom lo' m = true) :
    risingFrom lo m = true := by
  cases m with
  | nil => rfl
  | cons c m =>
    simp only [risingFrom, Bool.and_eq_true, decide_eq_true_eq] at hm ⊢
    exact ⟨by omega, hm.2⟩

theorem risingFrom_memErase (lo : Nat) (m : Memory) (a : Nat) (hm : risingFrom lo m = true) :
    risingFrom lo (memErase m a) = true := by
  induction m generalizing lo with
  | nil => rfl
  | cons c m ih =>
    obtain ⟨k, u⟩ := c
    simp only [risingFrom, Bool.and_eq_true, decide_eq_true_eq] at hm
    by_cases hk : k = a
    · have e : memErase ((k, u) :: m) a = memErase m a := by simp [memErase, hk]
      rw [e]; exact risingFrom_mono (by omega) _ (ih k hm.2)
    · have e : memErase ((k, u) :: m) a = (k, u) :: memErase m a := by simp [memErase, hk]
      rw [e]; simp [risingFrom, hm.1, ih k hm.2]

theorem risingFrom_memInsert (lo : Nat) (m : Memory) (a : Nat) (v : Word) (hlo : lo < a)
    (ha : ∀ c ∈ m, c.1 ≠ a) (hm : risingFrom lo m = true) : risingFrom lo (memInsert m a v) = true := by
  induction m generalizing lo with
  | nil => simp [memInsert, risingFrom, hlo]
  | cons c m ih =>
    obtain ⟨k, u⟩ := c
    have hk : k ≠ a := ha (k, u) (by simp)
    simp only [risingFrom, Bool.and_eq_true, decide_eq_true_eq] at hm
    by_cases hlt : a < k
    · simp [memInsert, hlt, risingFrom, hlo, hm.2]
    · simp only [memInsert, hlt, if_false, risingFrom, Bool.and_eq_true, decide_eq_true_eq]
      exact ⟨hm.1, ih k (by omega) (fun c hc => ha c (by simp [hc])) hm.2⟩

theorem rising_of_risingFrom {lo : Nat} (m : Memory) (hm : risingFrom lo m = true) : rising m = true := by
  cases m with
  | nil => rfl
  | cons c m => simp only [risingFrom, Bool.and_eq_true] at hm; exact hm.2

theorem rising_memErase (m : Memory) (a : Nat) (hm : rising m = true) : rising (memErase m a) = true := by
  cases m with
  | nil => rfl
  | cons c m =>
    obtain ⟨k, u⟩ := c
    by_cases hk : k = a
    · have e : memErase ((k, u) :: m) a = memErase m a := by simp [memErase, hk]
      rw [e]; exact rising_of_risingFrom _ (risingFrom_memErase k m a hm)
    · have e : memErase ((k, u) :: m) a = (k, u) :: memErase m a := by simp [memErase, hk]
      rw [e]; exact risingFrom_memErase k m a hm

theorem rising_memInsert (m : Memory) (a : Nat) (v : Word) (ha : ∀ c ∈ m, c.1 ≠ a) (hm : rising m = true) :
    rising (memInsert m a v) = true := by
  cases m with
  | nil => rfl
  | cons c m =>
    obtain ⟨k, u⟩ := c
    have hk : k ≠ a := ha (k, u) (by simp)
    by_cases hlt : a < k
    · simpa [memInsert, hlt, rising, risingFrom] using hm
    · simp only [memInsert, hlt, if_false, rising]
      exact risingFrom_memInsert k m a v (by omega) (fun c hc => ha c (by simp [hc])) hm

theorem all_memInsert (m : Memory) (a : Nat) (v : Word) (hc : cellOk (a, v) = true) (hm : m.all cellOk = true) :
    (memInsert m a v).all cellOk = true := by
  induction m with
  | nil => simpa [memInsert] using hc
  | cons c m ih =>
    obtain ⟨k, u⟩ := c
    simp only [List.all_cons, Bool.and_eq_true] at hm
    by_cases hlt : a < k
    · simp [memInsert, hlt, hc, hm.1, hm.2]
    · simp [memInsert, hlt, hm.1, ih hm.2]

/-- A write at a word-aligned address of the data space keeps the canonical form. -/
theorem memWrite_wf (m : Memory) (a : Nat) (v : Word) (ha : a % 4 = 0) (hlt : a < 2 ^ 32) (hm : Memory.wf m = true) :
    Memory.wf (memWrite m a v) = true := by
  simp only [Memory.wf, Bool.and_eq_true] at hm ⊢
  have hall : (memErase m a).all cellOk = true :=
    List.all_eq_true.mpr fun c hc => List.all_eq_true.mp hm.2 c (List.mem_filter.mp hc).1
  unfold memWrite
  split
  · exact ⟨rising_memErase m a hm.1, hall⟩
  · next hv =>
    refine ⟨rising_memInsert _ a v ?_ (rising_memErase m a hm.1), all_memInsert _ a v ?_ hall⟩
    · intro c hc; simpa [memErase] using (List.mem_filter.mp hc).2
    · simp only [cellOk, Bool.and_eq_true, decide_eq_true_eq]; exact ⟨⟨ha, hlt⟩, hv⟩

/-- SW's store keeps the canonical form: the address is a 32-bit value and is aligned. -/
theorem State.storeWord_wf (s : State) (a v : Word) (ha : aligned a = true) (hs : Memory.wf s.dmem = true) :
    Memory.wf (s.storeWord a v).dmem = true :=
  memWrite_wf s.dmem a.toNat v (by simpa [aligned] using ha) a.isLt hs

theorem resetWith_wf (p : Params) (m : List Word) : Memory.wf (State.resetWith p m).dmem = true := rfl

end Sys2Proof.Machine
end

