-- ==== Sys2Proof/Laws/Ops.lean ====
section
/-! SUPPORT. What each shared operation can do, said once, and `exec` arm by arm: cite these instead of unfolding. -/

namespace Sys2Proof.Machine

/-- An ALU-like instruction always completes: one register, the pc, and register 0 re-pinned. -/
theorem writeAndAdvance_next (rd : Reg) (v : Word) (s : State) :
    writeAndAdvance rd v s = .next ((s.writeReg rd v).retire (nextPc s)) := rfl

/-- A jump always completes. -/
theorem linkAndJump_next (rd : Reg) (target : Word) (s : State) :
    linkAndJump rd target s = .next ((s.writeReg rd (nextPc s)).retire target) := rfl

theorem aligned_iff (a : Word) : aligned a = true ↔ a.toNat % 4 = 0 := by simp [aligned]

/-- A load or store either does its access, or faults with nothing else changed. -/
theorem withAlignedAddress_cases (rs1 : Reg) (imm : Int) (s : State) (access : Word → State) :
    ((effectiveAddress s rs1 imm).toNat % 4 = 0 ∧
      withAlignedAddress rs1 imm s access = .next (access (effectiveAddress s rs1 imm))) ∨
    ((effectiveAddress s rs1 imm).toNat % 4 ≠ 0 ∧
      withAlignedAddress rs1 imm s access = .next (s.raiseFault (.misalignedAccess (effectiveAddress s rs1 imm)))) := by
  by_cases h : aligned (effectiveAddress s rs1 imm) = true
  · exact .inl ⟨(aligned_iff _).mp h, by simp [withAlignedAddress, h]⟩
  · exact .inr ⟨fun e => h ((aligned_iff _).mpr e), by simp [withAlignedAddress, h]⟩

/-- A branch is taken to its target (halting if it has the halt's form) or moves on. -/
theorem branchOn_cases (cond : Word → Word → Bool) (rs1 rs2 : Reg) (off : Int) (s : State) :
    (cond (s.readReg rs1) (s.readReg rs2) = true ∧ off = 0 ∧ rs1 = 0 ∧ rs2 = 0 ∧
      branchOn cond rs1 rs2 off s = .next ((s.retire (relativeTarget s off)).halt)) ∨
    (cond (s.readReg rs1) (s.readReg rs2) = true ∧ ¬ (off = 0 ∧ rs1 = 0 ∧ rs2 = 0) ∧
      branchOn cond rs1 rs2 off s = .next (s.retire (relativeTarget s off))) ∨
    (cond (s.readReg rs1) (s.readReg rs2) = false ∧ branchOn cond rs1 rs2 off s = .next (s.retire (nextPc s))) := by
  by_cases hc : cond (s.readReg rs1) (s.readReg rs2) = true
  · by_cases hh : off = 0 ∧ rs1 = 0 ∧ rs2 = 0
    · obtain ⟨rfl, rfl, rfl⟩ := hh
      exact .inl ⟨hc, rfl, rfl, rfl, by simp only [branchOn, hc, if_true]; rfl⟩
    · refine .inr (.inl ⟨hc, hh, ?_⟩)
      have : isHaltForm rs1 rs2 off = false := by
        simpa [isHaltForm, ← Bool.not_eq_true, and_assoc] using hh
      simp [branchOn, takeBranch, this, hc]
  · exact .inr (.inr ⟨by simpa using hc, by simp [branchOn, hc]⟩)

/-- What a fetch answers, by the address and the length of the store. -/
theorem ifetch_cases (m : List Word) (a : Word) :
    (a.toNat % 4 ≠ 0 ∧ ifetch m a = .misaligned) ∨
    (a.toNat % 4 = 0 ∧ m[a.toNat / 4]? = none ∧ ifetch m a = .absent) ∨
    (∃ w, a.toNat % 4 = 0 ∧ m[a.toNat / 4]? = some w ∧ ifetch m a = .word w) := by
  by_cases h : aligned a = true
  · have h4 := (aligned_iff a).mp h
    cases e : m[a.toNat / 4]? with
    | none => exact .inr (.inl ⟨h4, rfl, by simp [ifetch, h, e]⟩)
    | some w => exact .inr (.inr ⟨w, h4, rfl, by simp [ifetch, h, e]⟩)
  · exact .inl ⟨fun e => h ((aligned_iff _).mpr e), by simp [ifetch, h]⟩

/-- Everything a step of a running machine can be. -/
theorem step_cases (s : State) (h : s.run = .running) :
    (s.pc.toNat % 4 ≠ 0 ∧ step s = .next (s.raiseFault (.misalignedPC s.pc))) ∨
    (s.pc.toNat % 4 = 0 ∧ s.imem[s.pc.toNat / 4]? = none ∧ step s = .next s.exhaust) ∨
    (∃ w r, FetchesWord s w ∧ decode w = .error r ∧ step s = .next (s.raiseFault r)) ∨
    (∃ w i, FetchesWord s w ∧ decode w = .ok i ∧ step s = exec i s) := by
  rcases ifetch_cases s.imem s.pc with ⟨h4, hf⟩ | ⟨h4, hn, hf⟩ | ⟨w, h4, hw, hf⟩
  · exact .inl ⟨h4, by simp [step, h, hf]⟩
  · exact .inr (.inl ⟨h4, hn, by simp [step, h, hf]⟩)
  · cases hd : decode w with
    | error r => exact .inr (.inr (.inl ⟨w, r, ⟨h4, hw⟩, hd, by simp [step, h, hf, hd]⟩))
    | ok i => exact .inr (.inr (.inr ⟨w, i, ⟨h4, hw⟩, hd, by simp [step, h, hf, hd]⟩))

end Sys2Proof.Machine
end

