-- ==== Sys2Proof/Laws/Exec.lean ====
section
/-! SUPPORT. Everything `exec` can do, said once: five shapes of a next state, and no other outcome. -/

namespace Sys2Proof.Machine

/-- The shape "one register written, on to `n`": ALU, ADDI, LW, JAL, JALR. -/
def WriteShape (i : Instr) (s t : State) : Prop :=
  ∃ (rd : Reg) (v n : Word), t = (s.writeReg rd v).retire n ∧ mnemonicOf i ≠ .sw ∧
    (n = nextPc s ∧ maySetPc i = false ∨ (∃ o, i = .jal rd o ∧ n = relativeTarget s o) ∨
      ∃ b k, i = .jalr rd b k ∧ n = indirectTarget s b k)

/-- The shape "one memory word written": SW at an aligned address. -/
def StoreShape (i : Instr) (s t : State) : Prop :=
  ∃ (rs2 rs1 : Reg) (imm : Int), i = .sw rs2 rs1 imm ∧ aligned (effectiveAddress s rs1 imm) = true ∧
    t = (s.storeWord (effectiveAddress s rs1 imm) (s.readReg rs2)).retire (nextPc s)

/-- The shape "only the pc": a branch that does not halt. -/
def GoShape (i : Instr) (s t : State) : Prop :=
  ∃ (rs1 rs2 : Reg) (off : Int) (n : Word), (i = .beq rs1 rs2 off ∨ i = .bne rs1 rs2 off ∨ i = .blt rs1 rs2 off) ∧
    i ≠ .beq 0 0 0 ∧ t = s.retire n ∧ (n = nextPc s ∨ n = relativeTarget s off)

/-- The shape "a fault": a misaligned access, or BLT where `BLT_MODE` is `fault`. -/
def FaultShape (i : Instr) (s t : State) : Prop :=
  (∃ (r b : Reg) (n : Int), (i = .lw r b n ∨ i = .sw r b n) ∧ aligned (effectiveAddress s b n) = false ∧
    t = s.raiseFault (.misalignedAccess (effectiveAddress s b n))) ∨
  (∃ (rs1 rs2 : Reg) (off : Int), i = .blt rs1 rs2 off ∧ s.params.bltMode = .fault ∧
    t = s.raiseFault (.unsupportedFunction (wordOf i)))

/-- The shape "the virtual halt". -/
def HaltShape (i : Instr) (s t : State) : Prop := i = .beq 0 0 0 ∧ t = (s.retire (relativeTarget s 0)).halt

/-- Register 0 never differs from itself: BNE and BLT cannot halt (R131, R132). -/
theorem branchOn_shape (cond : Word → Word → Bool) (rs1 rs2 : Reg) (off : Int) (s : State) :
    (∃ n, branchOn cond rs1 rs2 off s = .next (s.retire n) ∧ (n = nextPc s ∨ n = relativeTarget s off) ∧
      ((off = 0 ∧ rs1 = 0 ∧ rs2 = 0) → cond 0 0 = false)) ∨
    (off = 0 ∧ rs1 = 0 ∧ rs2 = 0 ∧ cond 0 0 = true ∧
      branchOn cond rs1 rs2 off s = .next ((s.retire (relativeTarget s off)).halt)) := by
  rcases branchOn_cases cond rs1 rs2 off s with ⟨hc, ho, h1, h2, h⟩ | ⟨_, hn, h⟩ | ⟨hc, h⟩
  · refine .inr ⟨ho, h1, h2, ?_, h⟩
    simpa [h1, h2] using hc
  · exact .inl ⟨_, h, .inr rfl, fun e => absurd e hn⟩
  · refine .inl ⟨_, h, .inl rfl, ?_⟩
    rintro ⟨_, h1, h2⟩
    simpa [h1, h2] using hc

/-- `exec` answers a next state of one of the five shapes, for every instruction and every state. -/
theorem exec_cases (i : Instr) (s : State) :
    ∃ t, exec i s = .next t ∧
      (WriteShape i s t ∨ StoreShape i s t ∨ GoShape i s t ∨ HaltShape i s t ∨ FaultShape i s t) := by
  have branch : ∀ (cond : Word → Word → Bool) (rs1 rs2 : Reg) (off : Int),
      (i = .bne rs1 rs2 off ∨ i = .blt rs1 rs2 off) → cond 0 0 = false →
      ∃ t, branchOn cond rs1 rs2 off s = .next t ∧ GoShape i s t := by
    intro cond rs1 rs2 off hi hc
    rcases branchOn_shape cond rs1 rs2 off s with ⟨n, h, hn, _⟩ | ⟨_, _, _, h, _⟩
    · refine ⟨_, h, rs1, rs2, off, n, .inr hi, ?_, rfl, hn⟩
      rcases hi with e | e <;> simp [e]
    · rw [hc] at h; cases h
  cases i with
  | add rd _ _ => exact ⟨_, rfl, .inl ⟨rd, _, _, rfl, by simp [mnemonicOf], .inl ⟨rfl, rfl⟩⟩⟩
  | sub rd _ _ => exact ⟨_, rfl, .inl ⟨rd, _, _, rfl, by simp [mnemonicOf], .inl ⟨rfl, rfl⟩⟩⟩
  | slt rd _ _ => exact ⟨_, rfl, .inl ⟨rd, _, _, rfl, by simp [mnemonicOf], .inl ⟨rfl, rfl⟩⟩⟩
  | srl rd _ _ => exact ⟨_, rfl, .inl ⟨rd, _, _, rfl, by simp [mnemonicOf], .inl ⟨rfl, rfl⟩⟩⟩
  | or rd _ _ => exact ⟨_, rfl, .inl ⟨rd, _, _, rfl, by simp [mnemonicOf], .inl ⟨rfl, rfl⟩⟩⟩
  | and rd _ _ => exact ⟨_, rfl, .inl ⟨rd, _, _, rfl, by simp [mnemonicOf], .inl ⟨rfl, rfl⟩⟩⟩
  | addi rd _ _ => exact ⟨_, rfl, .inl ⟨rd, _, _, rfl, by simp [mnemonicOf], .inl ⟨rfl, rfl⟩⟩⟩
  | jal rd o => exact ⟨_, rfl, .inl ⟨rd, _, _, rfl, by simp [mnemonicOf], .inr (.inl ⟨o, rfl, rfl⟩)⟩⟩
  | jalr rd b k => exact ⟨_, rfl, .inl ⟨rd, _, _, rfl, by simp [mnemonicOf], .inr (.inr ⟨b, k, rfl, rfl⟩)⟩⟩
  | lw rd rs1 imm =>
    cases ha : aligned (effectiveAddress s rs1 imm) with
    | true =>
      refine ⟨_, if_pos ha, .inl ⟨rd, _, _, rfl, by simp [mnemonicOf], ?_⟩⟩
      exact .inl ⟨rfl, rfl⟩
    | false =>
      refine ⟨_, if_neg (by simp [ha]), .inr (.inr (.inr (.inr (.inl ?_))))⟩
      exact ⟨rd, rs1, imm, .inl rfl, ha, rfl⟩
  | sw rs2 rs1 imm =>
    cases ha : aligned (effectiveAddress s rs1 imm) with
    | true =>
      exact ⟨_, if_pos ha, .inr (.inl ⟨rs2, rs1, imm, rfl, ha, rfl⟩)⟩
    | false =>
      refine ⟨_, if_neg (by simp [ha]), .inr (.inr (.inr (.inr (.inl ?_))))⟩
      exact ⟨rs2, rs1, imm, .inr rfl, ha, rfl⟩
  | beq rs1 rs2 off =>
    rcases branchOn_shape wordsEqual rs1 rs2 off s with ⟨n, h, hn, hz⟩ | ⟨rfl, rfl, rfl, _, h⟩
    · refine ⟨_, h, .inr (.inr (.inl ⟨rs1, rs2, off, n, .inl rfl, ?_, rfl, hn⟩))⟩
      intro e
      injection e with e1 e2 e3
      exact absurd (hz ⟨e3, e1, e2⟩) (by decide)
    · exact ⟨_, h, .inr (.inr (.inr (.inl ⟨rfl, rfl⟩)))⟩
  | bne rs1 rs2 off =>
    obtain ⟨t, h, hg⟩ := branch wordsDiffer rs1 rs2 off (.inl rfl) (by decide)
    exact ⟨t, h, .inr (.inr (.inl hg))⟩
  | blt rs1 rs2 off =>
    cases hm : s.params.bltMode with
    | fault =>
      refine ⟨_, by simp [exec, execBlt, hm]; rfl, .inr (.inr (.inr (.inr (.inr ?_))))⟩
      exact ⟨rs1, rs2, off, rfl, hm, rfl⟩
    | signedLt =>
      obtain ⟨t, h, hg⟩ := branch signedLess rs1 rs2 off (.inr rfl) (by decide)
      exact ⟨t, by simpa [exec, execBlt, hm] using h, .inr (.inr (.inl hg))⟩

end Sys2Proof.Machine
end

