-- ==== Sys2Proof/Laws/Fields.lean ====
section
/-! SUPPORT. The fields and immediates of a packed word, one lemma per format and field (R61 to R66, R78), and the
values of sign extension. To reason about bits of a packed word: go to single bits, then rewrite with the lemmas
that the proofs below name. -/

namespace Sys2Proof

/-- `sext` is the core two's-complement value (R9). -/
theorem sext_eq_toInt {n : Nat} (v : BitVec n) : sext v = v.toInt := by
  unfold sext
  rw [BitVec.toInt_eq_msb_cond]
  simp [BitVec.msb_eq_getLsbD_last]

/-- The register a 5-bit field holds. -/
theorem toFin_regBits (r : Reg) : (regBits r).toFin = r := by
  apply Fin.ext; simp [regBits]

/-! ## Format R -/

@[simp] theorem opcodeOf_packR (op : BitVec 7) (f3 : BitVec 3) (f7 : BitVec 7) (rd rs1 rs2 : Reg) :
    opcodeOf (packR op f3 f7 rd rs1 rs2) = op := by
  apply BitVec.eq_of_getLsbD_eq; intro k hk
  interval_cases k <;>
    simp only [opcodeOf, packR, BitVec.getLsbD_extractLsb', BitVec.getLsbD_cast, BitVec.getLsbD_append] <;> simp

@[simp] theorem funct3Of_packR (op : BitVec 7) (f3 : BitVec 3) (f7 : BitVec 7) (rd rs1 rs2 : Reg) :
    funct3Of (packR op f3 f7 rd rs1 rs2) = f3 := by
  apply BitVec.eq_of_getLsbD_eq; intro k hk
  interval_cases k <;>
    simp only [funct3Of, packR, BitVec.getLsbD_extractLsb', BitVec.getLsbD_cast, BitVec.getLsbD_append] <;> simp

@[simp] theorem funct7Of_packR (op : BitVec 7) (f3 : BitVec 3) (f7 : BitVec 7) (rd rs1 rs2 : Reg) :
    funct7Of (packR op f3 f7 rd rs1 rs2) = f7 := by
  apply BitVec.eq_of_getLsbD_eq; intro k hk
  interval_cases k <;>
    simp only [funct7Of, packR, BitVec.getLsbD_extractLsb', BitVec.getLsbD_cast, BitVec.getLsbD_append] <;> simp

@[simp] theorem rdOf_packR (op : BitVec 7) (f3 : BitVec 3) (f7 : BitVec 7) (rd rs1 rs2 : Reg) :
    rdOf (packR op f3 f7 rd rs1 rs2) = rd := by
  have e : (packR op f3 f7 rd rs1 rs2).extractLsb' 7 5 = regBits rd := by
    apply BitVec.eq_of_getLsbD_eq; intro k hk
    interval_cases k <;>
      simp only [packR, BitVec.getLsbD_extractLsb', BitVec.getLsbD_cast, BitVec.getLsbD_append] <;> simp
  rw [rdOf, e]; exact toFin_regBits rd

@[simp] theorem rs1Of_packR (op : BitVec 7) (f3 : BitVec 3) (f7 : BitVec 7) (rd rs1 rs2 : Reg) :
    rs1Of (packR op f3 f7 rd rs1 rs2) = rs1 := by
  have e : (packR op f3 f7 rd rs1 rs2).extractLsb' 15 5 = regBits rs1 := by
    apply BitVec.eq_of_getLsbD_eq; intro k hk
    interval_cases k <;>
      simp only [packR, BitVec.getLsbD_extractLsb', BitVec.getLsbD_cast, BitVec.getLsbD_append] <;> simp
  rw [rs1Of, e]; exact toFin_regBits rs1

@[simp] theorem rs2Of_packR (op : BitVec 7) (f3 : BitVec 3) (f7 : BitVec 7) (rd rs1 rs2 : Reg) :
    rs2Of (packR op f3 f7 rd rs1 rs2) = rs2 := by
  have e : (packR op f3 f7 rd rs1 rs2).extractLsb' 20 5 = regBits rs2 := by
    apply BitVec.eq_of_getLsbD_eq; intro k hk
    interval_cases k <;>
      simp only [packR, BitVec.getLsbD_extractLsb', BitVec.getLsbD_cast, BitVec.getLsbD_append] <;> simp
  rw [rs2Of, e]; exact toFin_regBits rs2

/-! ## Format I -/

@[simp] theorem opcodeOf_packI (op : BitVec 7) (f3 : BitVec 3) (rd rs1 : Reg) (imm : Int) :
    opcodeOf (packI op f3 rd rs1 imm) = op := by
  apply BitVec.eq_of_getLsbD_eq; intro k hk
  interval_cases k <;>
    simp only [opcodeOf, packI, BitVec.getLsbD_extractLsb', BitVec.getLsbD_cast, BitVec.getLsbD_append] <;> simp

@[simp] theorem funct3Of_packI (op : BitVec 7) (f3 : BitVec 3) (rd rs1 : Reg) (imm : Int) :
    funct3Of (packI op f3 rd rs1 imm) = f3 := by
  apply BitVec.eq_of_getLsbD_eq; intro k hk
  interval_cases k <;>
    simp only [funct3Of, packI, BitVec.getLsbD_extractLsb', BitVec.getLsbD_cast, BitVec.getLsbD_append] <;> simp

@[simp] theorem rdOf_packI (op : BitVec 7) (f3 : BitVec 3) (rd rs1 : Reg) (imm : Int) :
    rdOf (packI op f3 rd rs1 imm) = rd := by
  have e : (packI op f3 rd rs1 imm).extractLsb' 7 5 = regBits rd := by
    apply BitVec.eq_of_getLsbD_eq; intro k hk
    interval_cases k <;>
      simp only [packI, BitVec.getLsbD_extractLsb', BitVec.getLsbD_cast, BitVec.getLsbD_append] <;> simp
  rw [rdOf, e]; exact toFin_regBits rd

@[simp] theorem rs1Of_packI (op : BitVec 7) (f3 : BitVec 3) (rd rs1 : Reg) (imm : Int) :
    rs1Of (packI op f3 rd rs1 imm) = rs1 := by
  have e : (packI op f3 rd rs1 imm).extractLsb' 15 5 = regBits rs1 := by
    apply BitVec.eq_of_getLsbD_eq; intro k hk
    interval_cases k <;>
      simp only [packI, BitVec.getLsbD_extractLsb', BitVec.getLsbD_cast, BitVec.getLsbD_append] <;> simp
  rw [rs1Of, e]; exact toFin_regBits rs1

theorem immI_packI (op : BitVec 7) (f3 : BitVec 3) (rd rs1 : Reg) (imm : Int) :
    immI (packI op f3 rd rs1 imm) = sext (BitVec.ofInt 12 imm) := by
  unfold immI
  congr 1
  apply BitVec.eq_of_getLsbD_eq; intro k hk
  interval_cases k <;>
    simp only [packI, BitVec.getLsbD_extractLsb', BitVec.getLsbD_cast, BitVec.getLsbD_append] <;> simp

/-! ## Format S -/

@[simp] theorem opcodeOf_packS (op : BitVec 7) (f3 : BitVec 3) (rs1 rs2 : Reg) (imm : Int) :
    opcodeOf (packS op f3 rs1 rs2 imm) = op := by
  apply BitVec.eq_of_getLsbD_eq; intro k hk
  interval_cases k <;>
    simp only [opcodeOf, packS, BitVec.getLsbD_extractLsb', BitVec.getLsbD_cast, BitVec.getLsbD_append] <;> simp

@[simp] theorem funct3Of_packS (op : BitVec 7) (f3 : BitVec 3) (rs1 rs2 : Reg) (imm : Int) :
    funct3Of (packS op f3 rs1 rs2 imm) = f3 := by
  apply BitVec.eq_of_getLsbD_eq; intro k hk
  interval_cases k <;>
    simp only [funct3Of, packS, BitVec.getLsbD_extractLsb', BitVec.getLsbD_cast, BitVec.getLsbD_append] <;> simp

@[simp] theorem rs1Of_packS (op : BitVec 7) (f3 : BitVec 3) (rs1 rs2 : Reg) (imm : Int) :
    rs1Of (packS op f3 rs1 rs2 imm) = rs1 := by
  have e : (packS op f3 rs1 rs2 imm).extractLsb' 15 5 = regBits rs1 := by
    apply BitVec.eq_of_getLsbD_eq; intro k hk
    interval_cases k <;>
      simp only [packS, BitVec.getLsbD_extractLsb', BitVec.getLsbD_cast, BitVec.getLsbD_append] <;> simp
  rw [rs1Of, e]; exact toFin_regBits rs1

@[simp] theorem rs2Of_packS (op : BitVec 7) (f3 : BitVec 3) (rs1 rs2 : Reg) (imm : Int) :
    rs2Of (packS op f3 rs1 rs2 imm) = rs2 := by
  have e : (packS op f3 rs1 rs2 imm).extractLsb' 20 5 = regBits rs2 := by
    apply BitVec.eq_of_getLsbD_eq; intro k hk
    interval_cases k <;>
      simp only [packS, BitVec.getLsbD_extractLsb', BitVec.getLsbD_cast, BitVec.getLsbD_append] <;> simp
  rw [rs2Of, e]; exact toFin_regBits rs2

theorem immS_packS (op : BitVec 7) (f3 : BitVec 3) (rs1 rs2 : Reg) (imm : Int) :
    immS (packS op f3 rs1 rs2 imm) = sext (BitVec.ofInt 12 imm) := by
  unfold immS
  congr 1
  apply BitVec.eq_of_getLsbD_eq; intro k hk
  interval_cases k <;>
    simp only [packS, BitVec.getLsbD_extractLsb', BitVec.getLsbD_cast, BitVec.getLsbD_append] <;> simp

/-! ## Format B -/

@[simp] theorem opcodeOf_packB (op : BitVec 7) (f3 : BitVec 3) (rs1 rs2 : Reg) (imm : Int) :
    opcodeOf (packB op f3 rs1 rs2 imm) = op := by
  apply BitVec.eq_of_getLsbD_eq; intro k hk
  interval_cases k <;>
    simp only [opcodeOf, packB, BitVec.getLsbD_extractLsb', BitVec.getLsbD_cast, BitVec.getLsbD_append] <;> simp

@[simp] theorem funct3Of_packB (op : BitVec 7) (f3 : BitVec 3) (rs1 rs2 : Reg) (imm : Int) :
    funct3Of (packB op f3 rs1 rs2 imm) = f3 := by
  apply BitVec.eq_of_getLsbD_eq; intro k hk
  interval_cases k <;>
    simp only [funct3Of, packB, BitVec.getLsbD_extractLsb', BitVec.getLsbD_cast, BitVec.getLsbD_append] <;> simp

@[simp] theorem rs1Of_packB (op : BitVec 7) (f3 : BitVec 3) (rs1 rs2 : Reg) (imm : Int) :
    rs1Of (packB op f3 rs1 rs2 imm) = rs1 := by
  have e : (packB op f3 rs1 rs2 imm).extractLsb' 15 5 = regBits rs1 := by
    apply BitVec.eq_of_getLsbD_eq; intro k hk
    interval_cases k <;>
      simp only [packB, BitVec.getLsbD_extractLsb', BitVec.getLsbD_cast, BitVec.getLsbD_append] <;> simp
  rw [rs1Of, e]; exact toFin_regBits rs1

@[simp] theorem rs2Of_packB (op : BitVec 7) (f3 : BitVec 3) (rs1 rs2 : Reg) (imm : Int) :
    rs2Of (packB op f3 rs1 rs2 imm) = rs2 := by
  have e : (packB op f3 rs1 rs2 imm).extractLsb' 20 5 = regBits rs2 := by
    apply BitVec.eq_of_getLsbD_eq; intro k hk
    interval_cases k <;>
      simp only [packB, BitVec.getLsbD_extractLsb', BitVec.getLsbD_cast, BitVec.getLsbD_append] <;> simp
  rw [rs2Of, e]; exact toFin_regBits rs2

theorem immB_packB (op : BitVec 7) (f3 : BitVec 3) (rs1 rs2 : Reg) (imm : Int) :
    immB (packB op f3 rs1 rs2 imm) = sext (BitVec.ofInt 13 imm &&& 0x1FFE#13) := by
  unfold immB
  congr 1
  apply BitVec.eq_of_getLsbD_eq; intro k hk
  interval_cases k <;>
    simp only [packB, BitVec.getLsbD_extractLsb', BitVec.getLsbD_cast, BitVec.getLsbD_append] <;> simp

/-! ## Format J -/

@[simp] theorem opcodeOf_packJ (op : BitVec 7) (rd : Reg) (imm : Int) :
    opcodeOf (packJ op rd imm) = op := by
  apply BitVec.eq_of_getLsbD_eq; intro k hk
  interval_cases k <;>
    simp only [opcodeOf, packJ, BitVec.getLsbD_extractLsb', BitVec.getLsbD_cast, BitVec.getLsbD_append] <;> simp

@[simp] theorem rdOf_packJ (op : BitVec 7) (rd : Reg) (imm : Int) :
    rdOf (packJ op rd imm) = rd := by
  have e : (packJ op rd imm).extractLsb' 7 5 = regBits rd := by
    apply BitVec.eq_of_getLsbD_eq; intro k hk
    interval_cases k <;>
      simp only [packJ, BitVec.getLsbD_extractLsb', BitVec.getLsbD_cast, BitVec.getLsbD_append] <;> simp
  rw [rdOf, e]; exact toFin_regBits rd

theorem immJ_packJ (op : BitVec 7) (rd : Reg) (imm : Int) :
    immJ (packJ op rd imm) = sext (BitVec.ofInt 21 imm &&& 0x1FFFFE#21) := by
  unfold immJ
  congr 1
  apply BitVec.eq_of_getLsbD_eq; intro k hk
  interval_cases k <;>
    simp only [packJ, BitVec.getLsbD_extractLsb', BitVec.getLsbD_cast, BitVec.getLsbD_append] <;> simp

end Sys2Proof
end

