-- ==== Sys2Proof/Laws/PerInstr.lean ====
section
/-! SUPPORT. Per-instruction statements about instructions as syntax. Family `EncodesItsRow`: the word packed for an
instruction matches the row of R79 it belongs to, whatever its operands. -/

namespace Sys2Proof.Laws.EncodesItsRow

/-- The packed word of the instruction matches its own row of the table. -/
def Statement (i : Instr) : Prop := rowMatches (rowOf (mnemonicOf i)) (wordOf i) = true

theorem add (rd rs1 rs2 : Reg) : Statement (.add rd rs1 rs2) := by
  simp [Statement, rowMatches, wordOf, mnemonicOf, rowOf, pack]

theorem sub (rd rs1 rs2 : Reg) : Statement (.sub rd rs1 rs2) := by
  simp [Statement, rowMatches, wordOf, mnemonicOf, rowOf, pack]

theorem slt (rd rs1 rs2 : Reg) : Statement (.slt rd rs1 rs2) := by
  simp [Statement, rowMatches, wordOf, mnemonicOf, rowOf, pack]

theorem srl (rd rs1 rs2 : Reg) : Statement (.srl rd rs1 rs2) := by
  simp [Statement, rowMatches, wordOf, mnemonicOf, rowOf, pack]

theorem or (rd rs1 rs2 : Reg) : Statement (.or rd rs1 rs2) := by
  simp [Statement, rowMatches, wordOf, mnemonicOf, rowOf, pack]

theorem and (rd rs1 rs2 : Reg) : Statement (.and rd rs1 rs2) := by
  simp [Statement, rowMatches, wordOf, mnemonicOf, rowOf, pack]

theorem addi (rd rs1 : Reg) (imm : Int) : Statement (.addi rd rs1 imm) := by
  simp [Statement, rowMatches, wordOf, mnemonicOf, rowOf, pack]

theorem lw (rd rs1 : Reg) (imm : Int) : Statement (.lw rd rs1 imm) := by
  simp [Statement, rowMatches, wordOf, mnemonicOf, rowOf, pack]

theorem jalr (rd rs1 : Reg) (imm : Int) : Statement (.jalr rd rs1 imm) := by
  simp [Statement, rowMatches, wordOf, mnemonicOf, rowOf, pack]

theorem sw (rs2 rs1 : Reg) (imm : Int) : Statement (.sw rs2 rs1 imm) := by
  simp [Statement, rowMatches, wordOf, mnemonicOf, rowOf, pack]

theorem beq (rs1 rs2 : Reg) (off : Int) : Statement (.beq rs1 rs2 off) := by
  simp [Statement, rowMatches, wordOf, mnemonicOf, rowOf, pack]

theorem bne (rs1 rs2 : Reg) (off : Int) : Statement (.bne rs1 rs2 off) := by
  simp [Statement, rowMatches, wordOf, mnemonicOf, rowOf, pack]

theorem blt (rs1 rs2 : Reg) (off : Int) : Statement (.blt rs1 rs2 off) := by
  simp [Statement, rowMatches, wordOf, mnemonicOf, rowOf, pack]

theorem jal (rd : Reg) (off : Int) : Statement (.jal rd off) := by
  simp [Statement, rowMatches, wordOf, mnemonicOf, rowOf, pack]

end Sys2Proof.Laws.EncodesItsRow
end

