-- ==== Sys2Proof/Laws/Run.lean ====
section
/-! SUPPORT. What one advance does, and the induction along a run. -/

namespace Sys2Proof.Machine

theorem State.advance_of_next (s t : State) (h : step s = .next t) : s.advance = t := by
  simp [State.advance, h]

/-- A step is taken only in the run state `Running`. -/
theorem running_of_step (s t : State) (h : step s = .next t) : s.run = .running := by
  cases hr : s.run <;> simp [step, hr] at h ⊢

/-- An ended run stays where it is. -/
theorem State.advance_of_ended (s : State) (h : s.run ≠ .running) : s.advance = s := by
  cases hs : step s with
  | next t => exact absurd (running_of_step s t hs) h
  | fault r => simp [State.advance, hs]
  | refused r => simp [State.advance, hs]

theorem stateAfter_of_ended (k : Nat) (s : State) (h : s.run ≠ .running) : stateAfter k s = s := by
  induction k with
  | zero => rfl
  | succ k ih => rw [stateAfter, State.advance_of_ended s h, ih]

theorem emitted_of_ended (s : State) (h : s.run ≠ .running) : emitted s = none := by
  cases hs : step s with
  | next t => exact absurd (running_of_step s t hs) h
  | fault r => simp [emitted, hs]
  | refused r => simp [emitted, hs]

theorem snapshotsFor_of_ended (k : Nat) (s : State) (h : s.run ≠ .running) : snapshotsFor k s = [] := by
  induction k with
  | zero => rfl
  | succ k ih => rw [snapshotsFor, emitted_of_ended s h, State.advance_of_ended s h, ih]; rfl

theorem stateAfter_add (j k : Nat) (s : State) : stateAfter (j + k) s = stateAfter k (stateAfter j s) := by
  induction j generalizing s with
  | zero => simp [stateAfter]
  | succ j ih => rw [Nat.add_right_comm, stateAfter, stateAfter, ih]

theorem snapshotsFor_add (j k : Nat) (s : State) :
    snapshotsFor (j + k) s = snapshotsFor j s ++ snapshotsFor k (stateAfter j s) := by
  induction j generalizing s with
  | zero => simp [snapshotsFor, stateAfter]
  | succ j ih => rw [Nat.add_right_comm, snapshotsFor, snapshotsFor, stateAfter, ih, List.append_assoc]

/-- What holds at a state and is kept by every step holds all along the run. -/
theorem stateAfter_induction (P : State → Prop) (keep : ∀ s t, P s → step s = .next t → P t) (k : Nat) (s : State)
    (h : P s) : P (stateAfter k s) := by
  induction k generalizing s with
  | zero => exact h
  | succ k ih =>
    refine ih s.advance ?_
    cases hs : step s with
    | next t => rw [State.advance_of_next s t hs]; exact keep s t h hs
    | fault r => simpa [State.advance, hs] using h
    | refused r => simpa [State.advance, hs] using h

end Sys2Proof.Machine
end

