-- ==== Sys2Proof/Tests/Slice0.lean ====
section
/-! SUPPORT. The model's own tests. Expected values are those printed in 95_test_vectors.md (the table is named at each
group) or in the rules; the witnesses at the end show states that meet the hypotheses of the statements. -/

namespace Sys2Proof.Machine.Tests

/-! ## Helpers -/

/-- Parameters with numbers, so that a test can run; `SP_INIT` is as good as any other. -/
def somePlace (mode : BltMode) : Params := { spInit := 0x7FFFFFF0, bltMode := mode, dumpBase := 0x100, dumpWords := 2 }

/-- A running machine at a pc of which the word is `w`, with registers and memory words written. -/
def machine (mode : BltMode) (pc : Nat) (w : Word) (regs : List (Reg × Word)) (mem : List (Nat × Word)) : State :=
  let s := State.resetWith (somePlace mode) (List.replicate (pc / 4) 0 ++ [w])
  let s := regs.foldl (fun s c => s.writeReg c.1 c.2) s
  { s with pc := BitVec.ofNat 32 pc, dmem := mem.foldl (fun m c => memWrite m c.1 c.2) [] }

/-- The machine of tables A and M: the word at pc 0. -/
def at0 (w : Word) (regs : List (Reg × Word)) (mem : List (Nat × Word)) : State := machine .fault 0 w regs mem

/-- The state a step goes to. -/
def after (s : State) : Option State :=
  match step s with
  | .next t => some t
  | .fault _ => none
  | .refused _ => none

/-- After one step: the pc, one register, the run state. -/
def see (s : State) (r : Reg) : Option (Word × Word × RunState) := (after s).map fun t => (t.pc, t.readReg r, t.run)

/-- After one step: the pc, one memory word, the run state. -/
def seeMem (s : State) (a : Nat) : Option (Word × Word × RunState) :=
  (after s).map fun t => (t.pc, memRead t.dmem a, t.run)

/-- The state after one step, or the state itself where there is none. -/
def next (s : State) : State := (after s).getD s

/-! ## Well-formedness: each check refuses an ill-formed term -/

theorem test_wf_addi_high : (Instr.addi 1 2 2048).wellFormed = false := by decide
theorem test_wf_addi_low : (Instr.addi 1 2 (-2049)).wellFormed = false := by decide
theorem test_wf_lw : (Instr.lw 1 2 2048).wellFormed = false := by decide
theorem test_wf_jalr : (Instr.jalr 1 2 (-2049)).wellFormed = false := by decide
theorem test_wf_sw : (Instr.sw 1 2 2048).wellFormed = false := by decide
theorem test_wf_beq_odd : (Instr.beq 1 2 3).wellFormed = false := by decide
theorem test_wf_bne_high : (Instr.bne 1 2 4096).wellFormed = false := by decide
theorem test_wf_blt_low : (Instr.blt 1 2 (-4098)).wellFormed = false := by decide
theorem test_wf_jal_odd : (Instr.jal 1 5).wellFormed = false := by decide
theorem test_wf_jal_high : (Instr.jal 1 1048576).wellFormed = false := by decide
theorem test_wf_jal_low : (Instr.jal 1 (-1048578)).wellFormed = false := by decide

/-! ## Decoding: one word per constructor, written out field by field from R62 to R66 and R79 (tables E1 to E5) -/

theorem test_decode_add : decode (0b0000000#7 ++ 10#5 ++ 10#5 ++ 0b000#3 ++ 11#5 ++ 0b0110011#7) = .ok (.add 11 10 10) := by
  decide
theorem test_decode_sub : decode (0b0100000#7 ++ 10#5 ++ 11#5 ++ 0b000#3 ++ 12#5 ++ 0b0110011#7) = .ok (.sub 12 11 10) := by
  decide
theorem test_decode_slt : decode (0b0000000#7 ++ 7#5 ++ 6#5 ++ 0b010#3 ++ 5#5 ++ 0b0110011#7) = .ok (.slt 5 6 7) := by
  decide
theorem test_decode_srl : decode (0b0000000#7 ++ 7#5 ++ 6#5 ++ 0b101#3 ++ 5#5 ++ 0b0110011#7) = .ok (.srl 5 6 7) := by
  decide
theorem test_decode_or : decode (0b0000000#7 ++ 7#5 ++ 6#5 ++ 0b110#3 ++ 5#5 ++ 0b0110011#7) = .ok (.or 5 6 7) := by
  decide
theorem test_decode_and : decode (0b0000000#7 ++ 7#5 ++ 6#5 ++ 0b111#3 ++ 5#5 ++ 0b0110011#7) = .ok (.and 5 6 7) := by
  decide
theorem test_decode_addi : decode (0b111111111111#12 ++ 5#5 ++ 0b000#3 ++ 5#5 ++ 0b0010011#7) = .ok (.addi 5 5 (-1)) := by
  decide
theorem test_decode_lw : decode (0b111111111100#12 ++ 7#5 ++ 0b010#3 ++ 10#5 ++ 0b0000011#7) = .ok (.lw 10 7 (-4)) := by
  decide
theorem test_decode_jalr : decode (0b111111111110#12 ++ 5#5 ++ 0b000#3 ++ 1#5 ++ 0b1100111#7) = .ok (.jalr 1 5 (-2)) := by
  decide
theorem test_decode_sw : decode (0b0000001#7 ++ 11#5 ++ 2#5 ++ 0b010#3 ++ 0b00100#5 ++ 0b0100011#7) = .ok (.sw 11 2 36) := by
  decide
theorem test_decode_beq :
    decode (0b0#1 ++ 0b111111#6 ++ 2#5 ++ 1#5 ++ 0b000#3 ++ 0b1111#4 ++ 0b1#1 ++ 0b1100011#7) = .ok (.beq 1 2 4094) := by
  decide
theorem test_decode_bne :
    decode (0b1#1 ++ 0b111111#6 ++ 0#5 ++ 5#5 ++ 0b001#3 ++ 0b1100#4 ++ 0b1#1 ++ 0b1100011#7) = .ok (.bne 5 0 (-8)) := by
  decide
theorem test_decode_blt :
    decode (0b0#1 ++ 0b000000#6 ++ 11#5 ++ 10#5 ++ 0b100#3 ++ 0b1000#4 ++ 0b0#1 ++ 0b1100011#7) = .ok (.blt 10 11 16) := by
  decide
theorem test_decode_jal :
    decode (0b0#1 ++ 0b0110100010#10 ++ 0b0#1 ++ 0b00010010#8 ++ 5#5 ++ 0b1101111#7) = .ok (.jal 5 74564) := by decide

/-! Table D2: each group of the B and the J scramble alone. -/

theorem test_decode_b_groups :
    decode 0x00000F63#32 = .ok (.beq 0 0 30) ∧ decode 0x000000E3#32 = .ok (.beq 0 0 2048) ∧
    decode 0x80000063#32 = .ok (.beq 0 0 (-4096)) := by decide
theorem test_decode_j_groups :
    decode 0x001000EF#32 = .ok (.jal 1 2048) ∧ decode 0x000010EF#32 = .ok (.jal 1 4096) ∧
    decode 0xFF1FF06F#32 = .ok (.jal 0 (-16)) := by decide

/-- Table D1: all four immediates of one word. -/
theorem test_immediates :
    (immI 0x7FFFFFFF#32, immS 0x7FFFFFFF#32, immB 0x7FFFFFFF#32, immJ 0x7FFFFFFF#32) = (2047, 2047, 4094, 1048574) := by
  decide

/-! ## Encoding: tables E1 to E5 -/

theorem test_encode_add : encode (.add 11 10 10) = .ok 0x00A505B3#32 := by decide
theorem test_encode_sub : encode (.sub 15 0 6) = .ok 0x406007B3#32 := by decide
theorem test_encode_addi : encode (.addi 1 2 (-2048)) = .ok 0x80010093#32 := by decide
theorem test_encode_lw : encode (.lw 10 2 8) = .ok 0x00812503#32 := by decide
theorem test_encode_jalr : encode (.jalr 0 1 0) = .ok 0x00008067#32 := by decide
theorem test_encode_sw : encode (.sw 31 31 2047) = .ok 0x7FFFAFA3#32 := by decide
theorem test_encode_beq_odd : encode (.beq 1 2 4095) = .ok 0x7E208FE3#32 := by decide
theorem test_encode_bne : encode (.bne 10 11 (-2)) = .ok 0xFEB51FE3#32 := by decide
theorem test_encode_blt : encode (.blt 0 10 8) = .ok 0x00A04463#32 := by decide
theorem test_encode_jal_odd : encode (.jal 1 5) = .ok 0x004000EF#32 := by decide
theorem test_encode_refuses_i :
    encode (.addi 1 2 2048) = .error .immediateOutOfRange ∧ encode (.addi 1 2 (-2049)) = .error .immediateOutOfRange := by
  decide
theorem test_encode_refuses_s : encode (.sw 1 2 2048) = .error .immediateOutOfRange := by decide
theorem test_encode_refuses_b :
    encode (.beq 1 2 4096) = .error .immediateOutOfRange ∧ encode (.beq 1 2 (-4097)) = .error .immediateOutOfRange := by
  decide
theorem test_encode_refuses_j :
    encode (.jal 1 1048576) = .error .immediateOutOfRange ∧ encode (.jal 1 (-1048577)) = .error .immediateOutOfRange := by
  decide

/-- S8: the printed text form of `addi a0, zero, 5`. -/
theorem test_text : wordText 0x00500513#32 = "00000000010100000000010100010011" := by decide

/-! ## Single steps: table A -/

theorem test_add_wraps : see (at0 0x006283B3#32 [(5, 0xFFFFFFFF), (6, 1)] []) 7 = some (4, 0, .running) := by decide
theorem test_add_same : see (at0 0x005282B3#32 [(5, 0x80000001)] []) 5 = some (4, 2, .running) := by decide
theorem test_add_x0 : see (at0 0x00628033#32 [(5, 3), (6, 4)] []) 0 = some (4, 0, .running) := by decide
theorem test_sub_wraps : see (at0 0x406283B3#32 [(6, 1)] []) 7 = some (4, 0xFFFFFFFF, .running) := by decide
theorem test_sub_min : see (at0 0x406283B3#32 [(5, 0x80000000), (6, 1)] []) 7 = some (4, 0x7FFFFFFF, .running) := by
  decide
theorem test_slt_min : see (at0 0x0062A3B3#32 [(5, 0x80000000), (6, 0x7FFFFFFF)] []) 7 = some (4, 1, .running) := by
  decide
theorem test_slt_equal : see (at0 0x0062A3B3#32 [(5, 5), (6, 5), (7, 9)] []) 7 = some (4, 0, .running) := by decide
theorem test_srl_32 : see (at0 0x0062D3B3#32 [(5, 0x80000000), (6, 32)] []) 7 = some (4, 0x80000000, .running) := by
  decide
theorem test_srl_low_bits : see (at0 0x0062D3B3#32 [(5, 0xF0F0F0F0), (6, 0xFFFFFFE8)] []) 7
    = some (4, 0x00F0F0F0, .running) := by decide
theorem test_or : see (at0 0x0062E3B3#32 [(5, 0xF0F00000), (6, 0x0FF000FF)] []) 7 = some (4, 0xFFF000FF, .running) := by
  decide
theorem test_and : see (at0 0x0062F3B3#32 [(5, 0xF0F00000), (6, 0x0FF000FF)] []) 7 = some (4, 0x00F00000, .running) := by
  decide
theorem test_addi_negative : see (at0 0x80028313#32 [] []) 6 = some (4, 0xFFFFF800, .running) := by decide
theorem test_addi_wraps : see (at0 0x7FF28313#32 [(5, 0x7FFFF801)] []) 6 = some (4, 0x80000000, .running) := by decide

/-! Table M. -/

theorem test_lw_top_word : see (at0 0xFFC02503#32 [] [(0xFFFFFFFC, 0x55)]) 10 = some (4, 0x55, .running) := by decide
theorem test_lw_misaligned : see (at0 0x0013A503#32 [(7, 0x100), (10, 9)] []) 10
    = some (0, 9, .faulted (.misalignedAccess 0x101)) := by decide
theorem test_lw_base_read_first : see (at0 0x0003A383#32 [(7, 0x100)] [(0x100, 0x99)]) 7 = some (4, 0x99, .running) := by
  decide
theorem test_sw_same_register : seeMem (at0 0xFE73AE23#32 [(7, 0x200)] []) 0x1FC = some (4, 0x200, .running) := by decide
theorem test_sw_misaligned : seeMem (at0 0x0063A123#32 [(6, 1), (7, 0x200)] []) 0x200
    = some (0, 0, .faulted (.misalignedAccess 0x202)) := by decide
theorem test_sw_zero_unlists : (after (at0 0x0003A423#32 [(7, 0x200)] [(0x208, 5)])).map (·.dmem) = some [] := by decide

/-! Table B: the word at pc 8. -/

theorem test_beq_taken : see (machine .fault 8 0x00628863#32 [(5, 3), (6, 3)] []) 5 = some (0x18, 3, .running) := by decide
theorem test_beq_halts : see (machine .fault 8 0x00000063#32 [] []) 0 = some (8, 0, .halted) := by decide
theorem test_beq_loops : see (machine .fault 8 0x00528063#32 [(5, 3)] []) 5 = some (8, 3, .running) := by decide
theorem test_bne_taken : see (machine .fault 8 0xFE629EE3#32 [(5, 0x80000000)] []) 5 = some (4, 0x80000000, .running) := by
  decide
theorem test_bne_never_halts : see (machine .fault 8 0x00001063#32 [] []) 0 = some (0x0C, 0, .running) := by decide
theorem test_blt_fault : see (machine .fault 8 0x0062C463#32 [(5, 0xFFFFFFFF)] []) 5
    = some (8, 0xFFFFFFFF, .faulted (.unsupportedFunction 0x0062C463)) := by decide
theorem test_blt_signed : see (machine .signedLt 8 0x0062C463#32 [(5, 0xFFFFFFFF)] []) 5
    = some (0x10, 0xFFFFFFFF, .running) := by decide

/-! Table J. -/

theorem test_jal_backward : see (machine .fault 8 0xFF9FF0EF#32 [] []) 1 = some (0, 0x0C, .running) := by decide
theorem test_jal_wraps : see (machine .fault 0 0xFFDFF06F#32 [] []) 0 = some (0xFFFFFFFC, 0, .running) := by decide
theorem test_jalr_old_value : see (machine .fault 4 0x000080E7#32 [(1, 0x10)] []) 1 = some (0x10, 8, .running) := by decide
theorem test_jalr_clears_bit_0 : see (machine .fault 4 0x002280E7#32 [(5, 0x21)] []) 1 = some (0x22, 8, .running) := by
  decide

/-! Table F. -/

theorem test_fault_zero_word : see (at0 0x00000000#32 [] []) 0 = some (0, 0, .faulted (.unsupportedOpcode 0)) := by decide
theorem test_fault_ecall : see (at0 0x00000073#32 [] []) 0 = some (0, 0, .faulted (.unsupportedOpcode 0b1110011)) := by
  decide
theorem test_fault_sra : see (at0 0x4020D133#32 [] []) 0 = some (0, 0, .faulted (.unsupportedFunction 0x4020D133)) := by
  decide
theorem test_fault_slti : see (at0 0x00002013#32 [] []) 0 = some (0, 0, .faulted (.unsupportedFunction 0x00002013)) := by
  decide

/-! ## Runs under fuel: P11 (the empty program) and P12 (a program that does not end) -/

theorem test_run_empty :
    runWithFuel 1 (State.resetWith (somePlace .fault) [])
      = .ended (State.resetWith (somePlace .fault) []).exhaust [] [0, 0] := by decide
theorem test_run_endless :
    (match runWithFuel 2 (at0 0x0000006F#32 [] []) with
      | .ended _ _ _ => none
      | .outOfFuel t shown => some (t.pc, shown.length)) = some (0, 2) := by decide

/-! ## The assembler layer: S2, S3, S8 -/

/-- A line with an instruction and no label. -/
def plain (mn : String) (ops : List Operand) : Line := { label := none, instr := some (mn, ops) }

theorem test_assemble_s8 :
    assemble [plain "addi" [.name "a0", .name "zero", .lit 5], plain "foo" [.name "a0", .name "a1", .name "a2"],
        plain "add" [.name "a1", .name "a0", .name "a0"]]
      = [.ok 0x00500513#32, .error .unknownInstruction, .ok 0x00A505B3#32] := by decide

theorem test_assemble_backward :
    assemble [plain "addi" [.name "t0", .name "zero", .lit 5], ⟨some "loop", none⟩,
        plain "addi" [.name "t0", .name "t0", .lit (-1)], plain "add" [.name "t1", .name "t1", .name "t0"],
        plain "bne" [.name "t0", .name "zero", .name "loop"]]
      = [.ok 0x00500293#32, .ok 0xFFF28293#32, .ok 0x00530333#32, .ok 0xFE029CE3#32] := by decide

theorem test_assemble_errors :
    assemble [plain "add" [.name "a1", .name "a0"], plain "add" [.name "a1", .name "a0", .name "x1"],
        plain "jal" [.name "ra", .name "nowhere"], plain "sw" [.name "ra", .mem 2048 "sp"],
        plain "sw" [.name "ra", .mem (-2048) "sp"]]
      = [.error .argumentCountMismatch, .error .unknownRegister, .error .unresolvedLabel, .error .immediateOutOfRange,
        .ok 0x80112023#32] := by decide

/-! ## Witnesses: the hypotheses of each statement that has some, met together

Where a hypothesis only names a value, the witness gives the value. -/

theorem witness_DecodeOfEncodeIsTheInstruction :
    (Instr.add 31 0 31).wellFormed = true ∧ (Instr.addi 1 2 (-2048)).wellFormed = true ∧
    (Instr.sw 1 2 2047).wellFormed = true ∧ (Instr.beq 1 2 4094).wellFormed = true ∧
    (Instr.blt 1 2 (-4096)).wellFormed = true ∧ (Instr.jal 1 1048574).wellFormed = true ∧
    (Instr.jal 1 (-1048576)).wellFormed = true := by decide

theorem witness_EncodeOfDecodeIsTheWord : decode 0x80112023#32 = .ok (.sw 1 2 (-2048)) := by decide

theorem witness_FieldsSurviveEncoding_forward :
    encodeFields ⟨.R, 0b0110011, 0, 0⟩ ⟨11, 10, 10, 0⟩ = .ok 0x00A505B3#32 ∧ formatOf 0b0110011 = some .R ∧
    encodeFields ⟨.I, 0b0010011, 0, 0⟩ ⟨1, 2, 0, -2048⟩ = .ok 0x80010093#32 ∧ formatOf 0b0010011 = some .I ∧
    encodeFields ⟨.S, 0b0100011, 2, 0⟩ ⟨0, 2, 1, -2048⟩ = .ok 0x80112023#32 ∧ formatOf 0b0100011 = some .S ∧
    encodeFields ⟨.B, 0b1100011, 0, 0⟩ ⟨0, 1, 2, 4095⟩ = .ok 0x7E208FE3#32 ∧ formatOf 0b1100011 = some .B ∧
    encodeFields ⟨.J, 0b1101111, 0, 0⟩ ⟨1, 0, 0, 1048575⟩ = .ok 0x7FFFF0EF#32 ∧ formatOf 0b1101111 = some .J := by decide

theorem witness_FieldsSurviveEncoding_backward :
    (decodeFields 0x00A505B3#32).fmt = some .R ∧ (decodeFields 0x80010093#32).fmt = some .I ∧
    (decodeFields 0x80112023#32).fmt = some .S ∧ (decodeFields 0x7E208FE3#32).fmt = some .B ∧
    (decodeFields 0x7FFFF0EF#32).fmt = some .J := by decide

theorem witness_FormatsRISPackToTheirSums : (-2048 : Int) ≤ -2048 ∧ (-2048 : Int) ≤ 2047 ∧ (2047 : Int) ≤ 2047 := by decide

theorem witness_FormatsBJPackToTheirSums :
    ((-4096 : Int) ≤ -4096 ∧ (-4096 : Int) ≤ 4095) ∧ ((-4096 : Int) ≤ 4095 ∧ (4095 : Int) ≤ 4095) ∧
    ((-1048576 : Int) ≤ -1048576 ∧ (-1048576 : Int) ≤ 1048575) ∧
    ((-1048576 : Int) ≤ 1048575 ∧ (1048575 : Int) ≤ 1048575) := by decide

theorem witness_EncoderRefusesExactlyOutOfRange :
    encodeFields ⟨.B, 0b1100011, 0, 0⟩ ⟨0, 1, 2, 4095⟩ ≠ .error .immediateOutOfRange ∧
    encodeFields ⟨.R, 0b0110011, 0, 0⟩ ⟨0, 1, 2, 99999⟩ ≠ .error .immediateOutOfRange ∧
    encodeFields ⟨.I, 0b0010011, 0, 0⟩ ⟨0, 1, 2, 2047⟩ ≠ .error .immediateOutOfRange ∧
    encodeFields ⟨.S, 0b0100011, 0, 0⟩ ⟨0, 1, 2, -2048⟩ ≠ .error .immediateOutOfRange ∧
    encodeFields ⟨.J, 0b1101111, 0, 0⟩ ⟨0, 1, 2, -1048576⟩ ≠ .error .immediateOutOfRange := by decide

/-- Table D1: a word with the sign bit set. -/
theorem witness_DecodedImmediatesAreTheirBits :
    0x80000000 = (0x80000000#32 : Word).toNat ∧ 1 = (0x80000000 : Nat) / 2 ^ 31 ∧ (decodeFields 0x80000000#32).fmt = none := by
  decide

theorem witness_TextFormReadsBack : 31 < 32 ∧ (wordText 1#32).toList[31]? = some '1' := by decide

theorem witness_FormatIsChosenByOpcode : ¬ isSupportedOpcode 0b1110011#7 := by unfold isSupportedOpcode; decide

theorem witness_DecodingFollowsTheMasks : inRow .add 0x00A505B3#32 ∧ inRow .jal 0xFFFFFFEF#32 := by unfold inRow; decide

/-- ECALL of table F is in no row and its opcode is none of the seven; SRA is in no row and its opcode is one. -/
theorem witness_EveryOtherWordIsRejectedByName :
    (∀ m, ¬ inRow m 0x00000073#32) ∧ ¬ isSupportedOpcode (opcodeOf 0x00000073#32) ∧
    (∀ m, ¬ inRow m 0x4020D133#32) ∧ isSupportedOpcode (opcodeOf 0x4020D133#32) := by
  unfold inRow isSupportedOpcode
  refine ⟨fun m => ?_, by decide, fun m => ?_, by decide⟩ <;> cases m <;> decide

/-- The machine of program P1 of part 3, at reset. -/
def p1 : State := State.resetWith (somePlace .fault) [0x00500513#32, 0x00A505B3#32]

theorem p1_fetches : FetchesWord p1 0x00500513#32 := ⟨by decide, by decide⟩

theorem witness_StepRunsTheDecodedInstruction : RunsNext p1 (.addi 10 0 5) := ⟨rfl, _, p1_fetches, by decide⟩

theorem witness_WordsInNoRowFault :
    ((at0 0x00000073#32 [] []).run = .running ∧ FetchesWord (at0 0x00000073#32 [] []) 0x00000073#32 ∧
      (∀ m, ¬ inRow m 0x00000073#32) ∧ ¬ isSupportedOpcode ((0x00000073#32 : Word).extractLsb' 0 7)) ∧
    ((at0 0x4020D133#32 [] []).run = .running ∧ FetchesWord (at0 0x4020D133#32 [] []) 0x4020D133#32 ∧
      (∀ m, ¬ inRow m 0x4020D133#32) ∧ isSupportedOpcode ((0x4020D133#32 : Word).extractLsb' 0 7)) := by
  obtain ⟨a, b, c, d⟩ := witness_EveryOtherWordIsRejectedByName
  exact ⟨⟨rfl, ⟨by decide, by decide⟩, a, b⟩, ⟨rfl, ⟨by decide, by decide⟩, c, d⟩⟩

/-- A machine after P8's jump to 6. -/
def atSix : State := { p1 with pc := 6 }

theorem witness_MisalignedPcFaults :
    (atSix.run = .running ∧ atSix.pc.toNat % 4 ≠ 0) ∧
    (({ p1 with pc := 0xFFFFFFFF } : State).run = .running ∧ ({ p1 with pc := 0xFFFFFFFF } : State).pc.toNat % 4 ≠ 0) := by
  decide

/-- A machine that has run off the end of P1 (the first pc past it), and one far past it. -/
def pastEnd (pc : Word) : State := { p1 with pc := pc }

theorem witness_PcPastTheProgramExhausts :
    ((pastEnd 8).run = .running ∧ (pastEnd 8).pc.toNat % 4 = 0 ∧ (pastEnd 8).imem.length ≤ (pastEnd 8).pc.toNat / 4) ∧
    ((pastEnd 0xFFFFFFFC).run = .running ∧ (pastEnd 0xFFFFFFFC).pc.toNat % 4 = 0 ∧
      (pastEnd 0xFFFFFFFC).imem.length ≤ (pastEnd 0xFFFFFFFC).pc.toNat / 4) := by decide

theorem witness_EndedRunTakesNoStep :
    p1.halt.run ≠ .running ∧ p1.exhaust.run ≠ .running ∧ (p1.raiseFault (.misalignedPC 6)).run ≠ .running := by decide

theorem witness_RunningStepAlwaysHasNextState : p1.run = .running ∧ (pastEnd 8).run = .running := by decide

/-- A step that ends in a fault, for each of the four reasons. -/
theorem witness_FaultChangesOnlyTheRunState :
    (step atSix = .next (next atSix) ∧ (next atSix).run = .faulted (.misalignedPC 6)) ∧
    (step (at0 0 [] []) = .next (next (at0 0 [] [])) ∧ (next (at0 0 [] [])).run = .faulted (.unsupportedOpcode 0)) ∧
    (step (at0 0x2013 [] []) = .next (next (at0 0x2013 [] [])) ∧
      (next (at0 0x2013 [] [])).run = .faulted (.unsupportedFunction 0x2013)) ∧
    (step (at0 0x0013A503 [] []) = .next (next (at0 0x0013A503 [] [])) ∧
      (next (at0 0x0013A503 [] [])).run = .faulted (.misalignedAccess 1)) :=
  ⟨⟨rfl, by decide⟩, ⟨rfl, by decide⟩, ⟨rfl, by decide⟩, ⟨rfl, by decide⟩⟩

/-- A machine on the virtual halt. -/
def onHalt : State := machine .fault 8 0x00000063#32 [] []

theorem witness_HaltExactlyOnTheVirtualHaltWord :
    step onHalt = .next (next onHalt) ∧ FetchesWord onHalt 0x00000063#32 ∧ (next onHalt).run = .halted :=
  ⟨rfl, ⟨by decide, by decide⟩, by decide⟩

theorem witness_StepShowsOneSnapshot :
    (step (pastEnd 8) = .next (next (pastEnd 8)) ∧ (next (pastEnd 8)).run = .exhausted) ∧
    (step p1 = .next (next p1) ∧ (next p1).run ≠ .exhausted ∧ NoFault (next p1)) :=
  ⟨⟨rfl, by decide⟩, ⟨rfl, by decide, fun _ h => by cases h⟩⟩

/-- An aligned effective address at the bottom, at the top, and from an odd base (table M). -/
theorem witness_LwLoadsTheAlignedWord :
    (effectiveAddress p1 0 0).toNat % 4 = 0 ∧ (effectiveAddress p1 0 (-4)).toNat = 0xFFFFFFFC ∧
    (effectiveAddress (at0 0 [(7, 0x101)] []) 7 3).toNat % 4 = 0 := by decide

theorem witness_SwStoresTheAlignedWord :
    (effectiveAddress p1 0 0).toNat % 4 = 0 ∧ (effectiveAddress p1 0 (-4)).toNat = 0xFFFFFFFC := by decide

theorem witness_MisalignedAccessFaults :
    effectiveAddress p1 0 1 = 1 ∧ (effectiveAddress p1 0 1).toNat % 4 ≠ 0 ∧ (effectiveAddress p1 0 (-1)).toNat % 4 ≠ 0 ∧
    (effectiveAddress p1 0 2).toNat % 4 ≠ 0 := by decide

theorem witness_BltBranchesOnSignedLess : (machine .signedLt 8 0x0062C463#32 [] []).params.bltMode = .signedLt := rfl

/-- A machine on the BLT of table B with `BLT_MODE = fault`. -/
def onBlt : State := machine .fault 8 0x0062C463#32 [] []

theorem witness_BltFaultsWithItsWord :
    onBlt.params.bltMode = .fault ∧ onBlt.run = .running ∧ FetchesWord onBlt 0x0062C463#32 ∧
    decode 0x0062C463#32 = .ok (.blt 5 6 8) := ⟨rfl, rfl, ⟨by decide, by decide⟩, by decide⟩

theorem witness_JalrLinksAndJumpsToTheEvenSum :
    (0 : Int) = ((at0 0 [(5, 0xFFFFFFFF)] []).readReg 5).toNat + 1 - 2 ^ 32 ∧
    (0 : Int) = (((at0 0 [(5, 0xFFFFFFFF)] []).readReg 5).toNat + 1) % 2 ^ 32 := by decide

/-- The next state of executing an instruction. -/
def nextOf (i : Instr) (s : State) : State :=
  match exec i s with
  | .next t => t
  | .fault _ => s
  | .refused _ => s

theorem witness_RegisterZeroIsHardWired :
    (exec (.add 0 5 6) p1 = .next (nextOf (.add 0 5 6) p1) ∧ NoFault (nextOf (.add 0 5 6) p1)) ∧
    (step p1 = .next (next p1) ∧ p1.regs.get 0 = 0) :=
  ⟨⟨rfl, fun _ h => by cases h⟩, ⟨rfl, by decide⟩⟩

theorem witness_AtMostOneWriteBack :
    (exec (.sw 5 0 4) p1 = .next (nextOf (.sw 5 0 4) p1) ∧ NoFault (nextOf (.sw 5 0 4) p1) ∧
      destination (.sw 5 0 4) ≠ some 5) ∧
    (exec (.add 7 5 6) p1 = .next (nextOf (.add 7 5 6) p1) ∧ NoFault (nextOf (.add 7 5 6) p1) ∧
      destination (.add 7 5 6) ≠ some 6 ∧ mnemonicOf (.add 7 5 6) ≠ .sw ∧ ∀ off, ¬ TakesBranch (.add 7 5 6) off p1) ∧
    (exec (.beq 0 0 8) p1 = .next (nextOf (.beq 0 0 8) p1) ∧ NoFault (nextOf (.beq 0 0 8) p1) ∧
      TakesBranch (.beq 0 0 8) 8 p1) ∧
    (exec (.bne 0 0 8) p1 = .next (nextOf (.bne 0 0 8) p1) ∧ NoFault (nextOf (.bne 0 0 8) p1) ∧
      ∀ off, ¬ TakesBranch (.bne 0 0 8) off p1) ∧
    (exec (.jal 1 8) p1 = .next (nextOf (.jal 1 8) p1) ∧ NoFault (nextOf (.jal 1 8) p1)) ∧
    (exec (.jalr 1 0 8) p1 = .next (nextOf (.jalr 1 0 8) p1) ∧ NoFault (nextOf (.jalr 1 0 8) p1)) := by
  refine ⟨⟨rfl, ?_, by decide⟩, ⟨rfl, ?_, by decide, by decide, ?_⟩, ⟨rfl, ?_, 0, 0, .inl ⟨rfl, rfl⟩⟩, ⟨rfl, ?_, ?_⟩,
    ⟨rfl, ?_⟩, ⟨rfl, ?_⟩⟩
  · intro _ h; cases h
  · intro _ h; cases h
  · rintro off ⟨a, b, ⟨h, _⟩ | ⟨h, _⟩ | ⟨h, _⟩⟩ <;> cases h
  · intro _ h; cases h
  · intro _ h; cases h
  · rintro off ⟨a, b, ⟨h, _⟩ | ⟨h, hne⟩ | ⟨h, _⟩⟩
    · cases h
    · cases h; exact hne rfl
    · cases h
  · intro _ h; cases h
  · intro _ h; cases h

theorem witness_NoStepChangesTheProgram : step p1 = .next (next p1) := rfl

theorem witness_OnlySwWritesMemory : exec (.lw 5 0 4) p1 = .next (nextOf (.lw 5 0 4) p1) ∧ mnemonicOf (.lw 5 0 4) ≠ .sw :=
  ⟨rfl, by decide⟩

theorem witness_OnlyLwReadsMemory : mnemonicOf (.sw 5 0 4) ≠ .lw ∧ mnemonicOf (.beq 5 0 4) ≠ .lw := by decide

/-- Two machines that agree on all an ADD of registers 5 and 6 reads, and differ in register 7. -/
theorem witness_InstructionReadsOnlyItsSources :
    let s := at0 0x006283B3#32 [(5, 1), (6, 2), (7, 3)] []
    let u := at0 0x006283B3#32 [(5, 1), (6, 2), (7, 4)] []
    u.pc = s.pc ∧ u.dmem = s.dmem ∧ u.params = s.params ∧ u.run = s.run ∧
      (∀ r ∈ sources (.add 7 5 6), u.readReg r = s.readReg r) ∧ u.readReg 7 ≠ s.readReg 7 := by decide

/-- A state no run reaches, with memory listed, meets the invariant and steps. -/
theorem witness_StepKeepsTheInvariant :
    Inv (at0 0x0063A023#32 [(7, 0xFFFFFFFC), (6, 1)] [(0, 5), (8, 7)]) ∧
    step (at0 0x0063A023#32 [(7, 0xFFFFFFFC), (6, 1)] [(0, 5), (8, 7)])
      = .next (next (at0 0x0063A023#32 [(7, 0xFFFFFFFC), (6, 1)] [(0, 5), (8, 7)])) :=
  ⟨⟨by decide, by decide, by decide⟩, rfl⟩

theorem witness_StepExplainsTheRunState :
    (step onHalt = .next (next onHalt) ∧ (next onHalt).run = .halted) ∧
    (step onBlt = .next (next onBlt) ∧ (next onBlt).run = .faulted (.unsupportedFunction 0x0062C463)) :=
  ⟨⟨rfl, by decide⟩, ⟨rfl, by decide⟩⟩

theorem witness_MisalignedPcIsTwoModFour :
    atSix.pc.toNat % 2 = 0 ∧ step atSix = .next (next atSix) ∧ (next atSix).run = .faulted (.misalignedPC 6) :=
  ⟨by decide, rfl, by decide⟩

theorem witness_ResetLeavesTheStatedState : p1 = State.resetWith (somePlace .fault) [0x00500513#32, 0x00A505B3#32] ∧
    (0 : Reg) ≠ 2 ∧ (1 : Reg) ≠ 2 ∧ (31 : Reg) ≠ 2 := by decide

theorem witness_ResetWorksFromEveryState :
    (p1.halt.imem[0]? = some 0x00500513#32 ∧ decode 0x00500513#32 = .ok (.addi 10 0 5)) ∧
    (State.resetWith (somePlace .fault) []).exhaust.imem = [] := by decide

theorem witness_DumpShowsTheWindow :
    (1 < p1.params.dumpWords ∧ p1.run = .running) ∧ (1 < p1.halt.params.dumpWords ∧ p1.halt.run ≠ .running) := by decide

/-- The lines of program P3 before and after its label `double`, with a branch to it of each kind. -/
def beforeDouble : List Line := [plain "addi" [.name "a0", .name "zero", .lit 7], plain "jal" [.name "ra", .name "double"]]

def afterDouble : List Line :=
  [plain "beq" [.name "a0", .name "a1", .name "double"], plain "bne" [.name "a0", .name "a1", .name "double"],
    plain "blt" [.name "a0", .name "a1", .name "double"]]

def double : Line := { label := some "double", instr := some ("add", [.name "a1", .name "a0", .name "a0"]) }

/-- The label stands at 8; the jal is instruction 1, the branches are instructions 3, 4 and 5. -/
theorem witness_LabelOffsetIsTargetLessOwnAddress :
    (∀ l ∈ beforeDouble ++ afterDouble, l.label ≠ some "double") ∧
    registerOf "ra" = some 1 ∧ registerOf "a0" = some 10 ∧ registerOf "a1" = some 11 ∧
    ((beforeDouble ++ double :: afterDouble).filterMap (·.instr))[1]? = some ("jal", [.name "ra", .name "double"]) ∧
    ((beforeDouble ++ double :: afterDouble).filterMap (·.instr))[3]?
      = some ("beq", [.name "a0", .name "a1", .name "double"]) ∧
    ((beforeDouble ++ double :: afterDouble).filterMap (·.instr))[4]?
      = some ("bne", [.name "a0", .name "a1", .name "double"]) ∧
    ((beforeDouble ++ double :: afterDouble).filterMap (·.instr))[5]?
      = some ("blt", [.name "a0", .name "a1", .name "double"]) ∧
    encode (.jal 1 (8 - 4 * 1)) = .ok 0x004000EF#32 ∧ (encode (.beq 10 11 (8 - 4 * 3))).toOption.isSome := by decide

/-- A distance no branch can carry, as a label 4096 bytes away gives it. -/
theorem witness_LabelOffset_outOfRange : encode (.beq 10 11 (4096 - 4 * 0)) = .error .immediateOutOfRange := by decide

theorem witness_OneLineChangesNoOtherOutput : 1 = ([plain "foo" []].filter fun l => l.instr.isSome).length := by decide

theorem witness_AssembledWordIsAnEncoding :
    assembleLine [("double", 16)] 4 "jal" [.name "ra", .name "double"] = .ok 0x00C000EF#32 ∧
    (∀ m, spelling m ≠ "foo") := by
  refine ⟨by decide, fun m => ?_⟩
  cases m <;> decide

theorem witness_RegisterNamesAreDistinct : registerOf "zero" = some 0 ∧ registerOf "t6" = some 31 := by decide

theorem witness_FuelIsNoEnding :
    runWithFuel 1 (pastEnd 8) = .ended (stateAfter 1 (pastEnd 8)) [] (memoryDump (stateAfter 1 (pastEnd 8))) ∧
    runWithFuel 1 p1 = .outOfFuel (stateAfter 1 p1) (snapshotsFor 1 p1) := ⟨rfl, rfl⟩

/-- `beq t0, t0, 0` of table B and `jal zero, 0` of P12, each on itself. -/
theorem witness_SelfTargetingLoopRunsForEver :
    (RunsNext (machine .fault 8 0x00528063#32 [(5, 3)] []) (.beq 5 5 0) ∧
      TakesBranch (.beq 5 5 0) 0 (machine .fault 8 0x00528063#32 [(5, 3)] []) ∧ Instr.beq 5 5 0 ≠ .beq 0 0 0) ∧
    RunsNext (at0 0x0000006F#32 [] []) (.jal 0 0) :=
  ⟨⟨⟨rfl, 0x00528063#32, ⟨by decide, by decide⟩, by decide⟩, ⟨5, 5, .inl ⟨rfl, rfl⟩⟩, by decide⟩,
    ⟨rfl, 0x0000006F#32, ⟨by decide, by decide⟩, by decide⟩⟩

end Sys2Proof.Machine.Tests
end

section
/-! Data memory over a whole history of writes (20_memory.md R43, R44). -/

namespace Sys2Proof.Machine

/-- After any sequence of writes to any memory, a read gives the last value written to its address, and what the memory
held before where the sequence writes nothing there. The induction takes the writes from the last one backwards, as the
search does. -/
theorem memRead_foldl_memWrite (ws : List (Nat × Word)) (m : Memory) (a : Nat) :
    memRead (ws.foldl (fun m c => memWrite m c.1 c.2) m) a =
      (ws.reverse.find? fun c => c.1 == a).elim (memRead m a) Prod.snd := by
  induction ws using List.reverseRecOn with
  | nil => rfl
  | append_singleton ws c ih =>
    rw [List.foldl_concat, memRead_memWrite, List.reverse_concat]
    by_cases hc : c.1 = a
    · rw [if_pos hc.symm, List.find?_cons_of_pos (by simpa using hc), Option.elim_some]
    · rw [if_neg (Ne.symm hc), List.find?_cons_of_neg (by simpa using hc), ih]

/-- Settles O46: the history law from the empty memory of reset, of which every word reads 0. -/
theorem readGivesTheLastWrite : Obligations.ReadGivesTheLastWrite := by
  unfold Obligations.ReadGivesTheLastWrite
  intro ws a
  rw [memRead_foldl_memWrite]
  cases ws.reverse.find? fun c => c.1 == a with
  | none => rfl
  | some c => rfl

end Sys2Proof.Machine
end

section
/-! The number of a packed word (30_encoding.md R67 to R70, R73): each format's word as a sum of its fields. -/

namespace Sys2Proof.Machine

/-- Concatenation `‖` weighs its left part by the width of its right part. -/
theorem toNat_append_eq_add {n m : Nat} (a : BitVec n) (b : BitVec m) :
    (a ++ b).toNat = a.toNat * 2 ^ m + b.toNat := by
  rw [BitVec.toNat_append, ← Nat.shiftLeft_add_eq_or_of_lt b.isLt, Nat.shiftLeft_eq]

/-- The field `v[s+k-1:s]` as a quotient and remainder. -/
theorem toNat_extractLsb'_eq_div_mod {n : Nat} (v : BitVec n) (s k : Nat) :
    (v.extractLsb' s k).toNat = v.toNat / 2 ^ s % 2 ^ k := by
  rw [BitVec.extractLsb'_toNat, Nat.shiftRight_eq_div_pow]

theorem toNat_regBits (r : Reg) : (regBits r).toNat = r.val := Nat.mod_eq_of_lt r.isLt

/-- The pattern `imm mod 2^12` of R69 and R70. -/
theorem toNat_ofInt_twelve (imm : Int) : (BitVec.ofInt 12 imm).toNat = (imm % 4096).toNat := BitVec.toNat_ofInt ..

theorem toNat_packR (op : BitVec 7) (f3 : BitVec 3) (f7 : BitVec 7) (rd rs1 rs2 : Reg) :
    (packR op f3 f7 rd rs1 rs2).toNat =
      f7.toNat * 2 ^ 25 + rs2.val * 2 ^ 20 + rs1.val * 2 ^ 15 + f3.toNat * 2 ^ 12 + rd.val * 2 ^ 7 + op.toNat := by
  simp only [packR, BitVec.toNat_cast, toNat_append_eq_add, toNat_regBits]
  omega

theorem toNat_packI (op : BitVec 7) (f3 : BitVec 3) (rd rs1 : Reg) (imm : Int) :
    (packI op f3 rd rs1 imm).toNat =
      (imm % 4096).toNat * 2 ^ 20 + rs1.val * 2 ^ 15 + f3.toNat * 2 ^ 12 + rd.val * 2 ^ 7 + op.toNat := by
  simp only [packI, BitVec.toNat_cast, toNat_append_eq_add, toNat_regBits, toNat_ofInt_twelve]
  omega

theorem toNat_packS (op : BitVec 7) (f3 : BitVec 3) (rs1 rs2 : Reg) (imm : Int) :
    (packS op f3 rs1 rs2 imm).toNat =
      (imm % 4096).toNat / 2 ^ 5 * 2 ^ 25 + rs2.val * 2 ^ 20 + rs1.val * 2 ^ 15 + f3.toNat * 2 ^ 12
        + (imm % 4096).toNat % 32 * 2 ^ 7 + op.toNat := by
  simp only [packS, BitVec.toNat_cast, toNat_append_eq_add, toNat_extractLsb'_eq_div_mod, toNat_regBits,
    toNat_ofInt_twelve]
  omega

/-- An immediate the validator admits is packed (R73). -/
theorem encodeFields_of_immFits {r : Row} {x : EncoderInput} (h : immFits r.fmt x.imm = true) :
    encodeFields r x = .ok (pack r x) := if_pos h

/-- Settles O5: format R has no range to fail, and in formats I and S the bounds are the validator's own. -/
theorem formatsRISPackToTheirSums : Obligations.FormatsRISPackToTheirSums := by
  unfold Obligations.FormatsRISPackToTheirSums
  intro op f3 f7 rd rs1 rs2 imm
  refine ⟨⟨_, encodeFields_of_immFits rfl, toNat_packR op f3 f7 rd rs1 rs2⟩, fun hlo hhi => ?_⟩
  have fits : (decide (-2048 ≤ imm) && decide (imm ≤ 2047)) = true := by simp [hlo, hhi]
  exact ⟨⟨_, encodeFields_of_immFits fits, toNat_packI op f3 rd rs1 imm⟩,
    ⟨_, encodeFields_of_immFits fits, toNat_packS op f3 rs1 rs2 imm⟩⟩

end Sys2Proof.Machine
end

section
/-! The immediates of a word as arithmetic on its number (30_encoding.md R76): each is the number of its bits, less the
weight of the sign bit `w[31]`. -/

namespace Sys2Proof.Machine

/-- `sext` of R9 without its case split: the top bit, as the quotient by its own weight, counts as the subtrahend. -/
theorem sext_eq_sub {n : Nat} (v : BitVec (n + 1)) :
    sext v = (v.toNat : Int) - (v.toNat / 2 ^ n * 2 ^ (n + 1) : Nat) := by
  have hlt := v.isLt
  rw [sext_eq_toInt, BitVec.toInt_eq_msb_cond, BitVec.msb_eq_decide]
  by_cases h : 2 ^ n ≤ v.toNat
  · have hone : v.toNat / 2 ^ n = 1 := Nat.div_eq_of_lt_le (by omega) (by omega)
    simp [h, hone]
  · have hzero : v.toNat / 2 ^ n = 0 := Nat.div_eq_of_lt (by omega)
    simp [h, hzero]

theorem immI_eq_sub (w : Word) : immI w = (w.toNat / 2 ^ 20 : Nat) - (w.toNat / 2 ^ 31 * 4096 : Nat) := by
  have hw := w.isLt
  simp only [immI, sext_eq_sub, toNat_extractLsb'_eq_div_mod]
  omega

theorem immS_eq_sub (w : Word) :
    immS w = (w.toNat / 2 ^ 25 * 32 + w.toNat / 2 ^ 7 % 32 : Nat) - (w.toNat / 2 ^ 31 * 4096 : Nat) := by
  have hw := w.isLt
  have hhigh : w.toNat / 2 ^ 25 % 2 ^ 7 = w.toNat / 2 ^ 25 := by omega
  simp only [immS, sext_eq_sub, BitVec.toNat_cast, toNat_append_eq_add, toNat_extractLsb'_eq_div_mod, hhigh]
  omega

theorem immB_eq_sub (w : Word) :
    immB w = (w.toNat / 2 ^ 31 * 4096 + w.toNat / 2 ^ 7 % 2 * 2048 + w.toNat / 2 ^ 25 % 64 * 32
      + w.toNat / 2 ^ 8 % 16 * 2 : Nat) - (w.toNat / 2 ^ 31 * 8192 : Nat) := by
  have hw := w.isLt
  simp only [immB, sext_eq_sub, BitVec.toNat_cast, toNat_append_eq_add, toNat_extractLsb'_eq_div_mod,
    BitVec.toNat_ofNat]
  omega

theorem immJ_eq_sub (w : Word) :
    immJ w = (w.toNat / 2 ^ 31 * 1048576 + w.toNat / 2 ^ 12 % 256 * 4096 + w.toNat / 2 ^ 20 % 2 * 2048
      + w.toNat / 2 ^ 21 % 1024 * 2 : Nat) - (w.toNat / 2 ^ 31 * 2097152 : Nat) := by
  have hw := w.isLt
  simp only [immJ, sext_eq_sub, BitVec.toNat_cast, toNat_append_eq_add, toNat_extractLsb'_eq_div_mod,
    BitVec.toNat_ofNat]
  omega

theorem immI_bounds (w : Word) : -2048 ≤ immI w ∧ immI w ≤ 2047 := by
  have hw := w.isLt
  rw [immI_eq_sub]
  omega

theorem immS_bounds (w : Word) : -2048 ≤ immS w ∧ immS w ≤ 2047 := by
  have hw := w.isLt
  rw [immS_eq_sub]
  omega

theorem immB_bounds_and_even (w : Word) : -4096 ≤ immB w ∧ immB w ≤ 4094 ∧ immB w % 2 = 0 := by
  have hw := w.isLt
  rw [immB_eq_sub]
  omega

theorem immJ_bounds_and_even (w : Word) : -1048576 ≤ immJ w ∧ immJ w ≤ 1048574 ∧ immJ w % 2 = 0 := by
  have hw := w.isLt
  rw [immJ_eq_sub]
  omega

/-- The immediate delivered is that of the format delivered. -/
theorem decodeFields_imm (w : Word) : (decodeFields w).imm = (decodeFields w).fmt.bind fun fmt => immOf fmt w := rfl

/-- Settles O8: the four sums and their ranges, then the choice among them by the word's own format. -/
theorem decodedImmediatesAreTheirBits : Obligations.DecodedImmediatesAreTheirBits := by
  unfold Obligations.DecodedImmediatesAreTheirBits
  rintro w _ _ rfl rfl
  refine ⟨immI_eq_sub w, immS_eq_sub w, immB_eq_sub w, immJ_eq_sub w, immI_bounds w, immS_bounds w,
    immB_bounds_and_even w, immJ_bounds_and_even w, ?_⟩
  rw [decodeFields_imm]
  cases (decodeFields w).fmt with
  | none => rfl
  | some fmt => cases fmt <;> rfl

end Sys2Proof.Machine
end

section
/-! The raw fields of a word as digits of its number (30_encoding.md R75), and the number of a packed word of format B
and J (R71, R72). -/

namespace Sys2Proof.Machine

theorem toNat_opcodeOf (w : Word) : (opcodeOf w).toNat = w.toNat % 2 ^ 7 := by
  rw [opcodeOf, toNat_extractLsb'_eq_div_mod, pow_zero, Nat.div_one]

theorem toNat_funct3Of (w : Word) : (funct3Of w).toNat = w.toNat / 2 ^ 12 % 2 ^ 3 := toNat_extractLsb'_eq_div_mod ..

/-- The topmost field needs no remainder. -/
theorem toNat_funct7Of (w : Word) : (funct7Of w).toNat = w.toNat / 2 ^ 25 := by
  have hw := w.isLt
  rw [funct7Of, toNat_extractLsb'_eq_div_mod]
  omega

theorem val_rdOf (w : Word) : (rdOf w).val = w.toNat / 2 ^ 7 % 2 ^ 5 := toNat_extractLsb'_eq_div_mod ..

theorem val_rs1Of (w : Word) : (rs1Of w).val = w.toNat / 2 ^ 15 % 2 ^ 5 := toNat_extractLsb'_eq_div_mod ..

theorem val_rs2Of (w : Word) : (rs2Of w).val = w.toNat / 2 ^ 20 % 2 ^ 5 := toNat_extractLsb'_eq_div_mod ..

/-- Settles O9: the six digits, each by its own lemma. -/
theorem rawFieldsAreTheirBits : Obligations.RawFieldsAreTheirBits := fun w =>
  ⟨toNat_opcodeOf w, val_rdOf w, toNat_funct3Of w, val_rs1Of w, val_rs2Of w, toNat_funct7Of w⟩

/-- The pattern `imm mod 2^13` of R71. -/
theorem toNat_ofInt_thirteen (imm : Int) : (BitVec.ofInt 13 imm).toNat = (imm % 8192).toNat := BitVec.toNat_ofInt ..

/-- The pattern `imm mod 2^21` of R72. -/
theorem toNat_ofInt_twentyOne (imm : Int) : (BitVec.ofInt 21 imm).toNat = (imm % 2097152).toNat :=
  BitVec.toNat_ofInt ..

theorem toNat_packB (op : BitVec 7) (f3 : BitVec 3) (rs1 rs2 : Reg) (imm : Int) {u : Nat}
    (hu : u = (imm % 8192).toNat) :
    (packB op f3 rs1 rs2 imm).toNat =
      u / 2 ^ 12 * 2 ^ 31 + u / 2 ^ 5 % 2 ^ 6 * 2 ^ 25 + rs2.val * 2 ^ 20 + rs1.val * 2 ^ 15 + f3.toNat * 2 ^ 12
        + u / 2 % 2 ^ 4 * 2 ^ 8 + u / 2 ^ 11 % 2 * 2 ^ 7 + op.toNat := by
  simp only [packB, BitVec.toNat_cast, toNat_append_eq_add, toNat_extractLsb'_eq_div_mod, toNat_regBits,
    toNat_ofInt_thirteen, ← hu]
  omega

theorem toNat_packJ (op : BitVec 7) (rd : Reg) (imm : Int) {u : Nat} (hu : u = (imm % 2097152).toNat) :
    (packJ op rd imm).toNat =
      u / 2 ^ 20 * 2 ^ 31 + u / 2 % 2 ^ 10 * 2 ^ 21 + u / 2 ^ 11 % 2 * 2 ^ 20 + u / 2 ^ 12 % 2 ^ 8 * 2 ^ 12
        + rd.val * 2 ^ 7 + op.toNat := by
  simp only [packJ, BitVec.toNat_cast, toNat_append_eq_add, toNat_extractLsb'_eq_div_mod, toNat_regBits,
    toNat_ofInt_twentyOne, ← hu]
  omega

/-- `u[0]` is not packed (D17). -/
theorem packB_sub_emod_two (op : BitVec 7) (f3 : BitVec 3) (rs1 rs2 : Reg) (imm : Int) :
    packB op f3 rs1 rs2 (imm - imm % 2) = packB op f3 rs1 rs2 imm := by
  apply BitVec.eq_of_toNat_eq
  rw [toNat_packB _ _ _ _ _ rfl, toNat_packB _ _ _ _ _ rfl]
  omega

/-- `u[0]` is not packed (D17). -/
theorem packJ_sub_emod_two (op : BitVec 7) (rd : Reg) (imm : Int) : packJ op rd (imm - imm % 2) = packJ op rd imm := by
  apply BitVec.eq_of_toNat_eq
  rw [toNat_packJ _ _ _ rfl, toNat_packJ _ _ _ rfl]
  omega

theorem immFits_B_iff (imm : Int) : immFits .B imm = true ↔ -4096 ≤ imm ∧ imm ≤ 4095 := by simp [immFits]

theorem immFits_J_iff (imm : Int) : immFits .J imm = true ↔ -1048576 ≤ imm ∧ imm ≤ 1048575 := by simp [immFits]

/-- Settles O6: in range both immediates are packed, and the even one below packs to the same word. -/
theorem formatsBJPackToTheirSums : Obligations.FormatsBJPackToTheirSums := by
  unfold Obligations.FormatsBJPackToTheirSums
  intro op f3 f7 rd rs1 rs2 imm
  constructor
  · intro hlo hhi
    have fits : immFits .B imm = true := (immFits_B_iff _).mpr ⟨hlo, hhi⟩
    have fitsEven : immFits .B (imm - imm % 2) = true := (immFits_B_iff _).mpr (by omega)
    refine ⟨_, encodeFields_of_immFits fits, fun u hu => toNat_packB op f3 rs1 rs2 imm hu, ?_⟩
    exact (encodeFields_of_immFits fitsEven).trans (congrArg _ (packB_sub_emod_two op f3 rs1 rs2 imm))
  · intro hlo hhi
    have fits : immFits .J imm = true := (immFits_J_iff _).mpr ⟨hlo, hhi⟩
    have fitsEven : immFits .J (imm - imm % 2) = true := (immFits_J_iff _).mpr (by omega)
    refine ⟨_, encodeFields_of_immFits fits, fun u hu => toNat_packJ op rd imm hu, ?_⟩
    exact (encodeFields_of_immFits fitsEven).trans (congrArg _ (packJ_sub_emod_two op rd imm))

theorem encodeFields_eq_error_iff (r : Row) (x : EncoderInput) :
    encodeFields r x = .error .immediateOutOfRange ↔ immFits r.fmt x.imm = false := by
  cases h : immFits r.fmt x.imm <;> simp [encodeFields, h]

theorem encodeFields_eq_ok_iff (r : Row) (x : EncoderInput) (w : Word) :
    encodeFields r x = .ok w ↔ immFits r.fmt x.imm = true ∧ pack r x = w := by
  cases h : immFits r.fmt x.imm <;> simp [encodeFields, h]

/-- Settles O7: the validator's check fails exactly outside the format's range, and there is no other refusal. -/
theorem encoderRefusesExactlyOutOfRange : Obligations.EncoderRefusesExactlyOutOfRange := by
  unfold Obligations.EncoderRefusesExactlyOutOfRange
  intro r x
  constructor
  · rw [encodeFields_eq_error_iff]
    cases r.fmt with
    | R => simp [immFits]
    | I | S | B | J =>
      simp only [immFits, Bool.and_eq_false_iff, decide_eq_false_iff_not]
      omega
  · intro h
    cases e : encodeFields r x with
    | ok w => exact ⟨w, rfl⟩
    | error _ => exact absurd e h

end Sys2Proof.Machine
end

section
/-! The match of a word against the instruction table (30_encoding.md R79, R80): a word matches at most one row, so the
search of the decoder finds that row whatever the order of the table. -/

namespace Sys2Proof.Machine

theorem mem_mnemonics (m : Mnemonic) : m ∈ mnemonics := by cases m <;> decide

theorem rowMatches_iff (r : Row) (w : Word) :
    rowMatches r w = true ↔
      opcodeOf w = r.opcode ∧ (r.fmt ≠ .J → funct3Of w = r.funct3) ∧ (r.fmt = .R → funct7Of w = r.funct7) := by
  simp [rowMatches, and_assoc, Decidable.or_iff_not_imp_left]

/-- Some word may match both rows: no field that both rows fix tells them apart. -/
def rowsOverlap (r r' : Row) : Bool :=
  r.opcode == r'.opcode && (r.fmt == .J || r'.fmt == .J || r.funct3 == r'.funct3)
    && (r.fmt != .R || r'.fmt != .R || r.funct7 == r'.funct7)

theorem rowsOverlap_of_rowMatches {r r' : Row} {w : Word} (h : rowMatches r w = true) (h' : rowMatches r' w = true) :
    rowsOverlap r r' = true := by
  rw [rowMatches_iff] at h h'
  obtain ⟨hop, hf3, hf7⟩ := h
  obtain ⟨hop', hf3', hf7'⟩ := h'
  simp only [rowsOverlap, Bool.and_eq_true, Bool.or_eq_true, beq_iff_eq, bne_iff_ne]
  refine ⟨⟨hop.symm.trans hop', ?_⟩, ?_⟩
  · by_cases hJ : r.fmt = .J
    · exact .inl (.inl hJ)
    by_cases hJ' : r'.fmt = .J
    · exact .inl (.inr hJ')
    exact .inr ((hf3 hJ).symm.trans (hf3' hJ'))
  · by_cases hR : r.fmt = .R
    · by_cases hR' : r'.fmt = .R
      · exact .inr ((hf7 hR).symm.trans (hf7' hR'))
      · exact .inl (.inr hR')
    · exact .inl (.inl hR)

/-- The rows of R79 are pairwise disjoint: a check of the 14 by 14 pairs. -/
theorem eq_of_rowsOverlap : ∀ m ∈ mnemonics, ∀ m' ∈ mnemonics, rowsOverlap (rowOf m) (rowOf m') = true → m = m' := by
  decide

theorem eq_of_rowMatches {m m' : Mnemonic} {w : Word} (h : rowMatches (rowOf m) w = true)
    (h' : rowMatches (rowOf m') w = true) : m = m' :=
  eq_of_rowsOverlap m (mem_mnemonics m) m' (mem_mnemonics m') (rowsOverlap_of_rowMatches h h')

theorem findRow_eq_none_iff (w : Word) : findRow w = none ↔ ∀ m, ¬ rowMatches (rowOf m) w = true := by
  simp [findRow, mem_mnemonics]

theorem findRow_eq_some_iff (w : Word) (m : Mnemonic) : findRow w = some m ↔ rowMatches (rowOf m) w = true := by
  have found : ∀ m, findRow w = some m → rowMatches (rowOf m) w = true :=
    fun _ e => List.find?_some (p := fun m => rowMatches (rowOf m) w) e
  refine ⟨found m, fun h => ?_⟩
  cases e : findRow w with
  | none => exact absurd h ((findRow_eq_none_iff w).mp e m)
  | some m' => exact congrArg some (eq_of_rowMatches (found m' e) h)

theorem decode_of_rowMatches {m : Mnemonic} {w : Word} (h : rowMatches (rowOf m) w = true) :
    decode w = .ok (instrOf m w) := by
  rw [decode, (findRow_eq_some_iff w m).mpr h]

theorem exists_row_of_decode_eq_ok {w : Word} {i : Instr} (h : decode w = .ok i) :
    ∃ m, rowMatches (rowOf m) w = true ∧ i = instrOf m w := by
  cases e : findRow w with
  | some m =>
    have hm := (findRow_eq_some_iff w m).mp e
    rw [decode_of_rowMatches hm] at h
    exact ⟨m, hm, (Except.ok.inj h).symm⟩
  | none =>
    cases hf : formatOf (opcodeOf w) <;> simp [decode, e, hf] at h

@[simp] theorem mnemonicOf_instrOf (m : Mnemonic) (w : Word) : mnemonicOf (instrOf m w) = m := by cases m <;> rfl

/-- A decoded word matches the row of its instruction, which has the word's own operands. -/
theorem decode_eq_ok_iff (w : Word) (i : Instr) :
    decode w = .ok i ↔ rowMatches (rowOf (mnemonicOf i)) w = true ∧ i = instrOf (mnemonicOf i) w := by
  constructor
  · intro h
    obtain ⟨m, hm, rfl⟩ := exists_row_of_decode_eq_ok h
    rw [mnemonicOf_instrOf]
    exact ⟨hm, rfl⟩
  · rintro ⟨hm, hi⟩
    exact (decode_of_rowMatches hm).trans (congrArg _ hi.symm)

/-! ## The opcodes with a format -/

theorem formatOf_eq_none_iff (op : BitVec 7) : formatOf op = none ↔ ¬ isSupportedOpcode op := by
  simp [formatOf, mnemonics, rowOf, isSupportedOpcode, eq_comm (a := op)]

/-- Settles O10: the seven by evaluation, the others by the search finding no row. -/
theorem formatIsChosenByOpcode : Obligations.FormatIsChosenByOpcode :=
  ⟨by decide, by decide, by decide, by decide, by decide, by decide, by decide,
    fun op h => (formatOf_eq_none_iff op).mpr h⟩

theorem decode_of_not_supported {w : Word} (hrow : ∀ m, ¬ rowMatches (rowOf m) w = true)
    (hop : ¬ isSupportedOpcode (opcodeOf w)) : decode w = .error (.unsupportedOpcode (opcodeOf w)) := by
  rw [decode, (findRow_eq_none_iff w).mpr hrow, (formatOf_eq_none_iff _).mpr hop]

theorem decode_of_supported {w : Word} (hrow : ∀ m, ¬ rowMatches (rowOf m) w = true)
    (hop : isSupportedOpcode (opcodeOf w)) : decode w = .error (.unsupportedFunction w) := by
  cases hf : formatOf (opcodeOf w) with
  | none => exact absurd hop ((formatOf_eq_none_iff _).mp hf)
  | some fmt => rw [decode, (findRow_eq_none_iff w).mpr hrow, hf]

/-! ## The masks of R79 -/

/-- The word of a row with every operand field 0. -/
def rowWord (r : Row) : Word := pack r ⟨0, 0, 0, 0⟩

theorem tableMatch_eq_rowWord (m : Mnemonic) : tableMatch m = rowWord (rowOf m) := by cases m <;> decide

theorem packS_zero (op : BitVec 7) (f3 : BitVec 3) : packS op f3 0 0 0 = packI op f3 0 0 0 := by
  apply BitVec.eq_of_toNat_eq
  rw [toNat_packS, toNat_packI]
  simp

theorem packB_zero (op : BitVec 7) (f3 : BitVec 3) : packB op f3 0 0 0 = packI op f3 0 0 0 := by
  apply BitVec.eq_of_toNat_eq
  rw [toNat_packB _ _ _ _ _ rfl, toNat_packI]
  simp

theorem and_maskR (w : Word) : w &&& 0xFE00707F#32 = packR (opcodeOf w) (funct3Of w) (funct7Of w) 0 0 0 := by
  apply BitVec.eq_of_getLsbD_eq
  intro k hk
  interval_cases k <;>
    simp only [packR, opcodeOf, funct3Of, funct7Of, BitVec.getLsbD_and, BitVec.getLsbD_cast, BitVec.getLsbD_append,
      BitVec.getLsbD_extractLsb'] <;>
    simp [regBits]

theorem and_maskI (w : Word) : w &&& 0x0000707F#32 = packI (opcodeOf w) (funct3Of w) 0 0 0 := by
  apply BitVec.eq_of_getLsbD_eq
  intro k hk
  interval_cases k <;>
    simp only [packI, opcodeOf, funct3Of, BitVec.getLsbD_and, BitVec.getLsbD_cast, BitVec.getLsbD_append,
      BitVec.getLsbD_extractLsb'] <;>
    simp [regBits]

theorem and_maskJ (w : Word) : w &&& 0x0000007F#32 = packJ (opcodeOf w) 0 0 := by
  apply BitVec.eq_of_getLsbD_eq
  intro k hk
  interval_cases k <;>
    simp only [packJ, opcodeOf, BitVec.getLsbD_and, BitVec.getLsbD_cast, BitVec.getLsbD_append,
      BitVec.getLsbD_extractLsb'] <;>
    simp [regBits]

/-- A row's mask keeps of a word the fields the row fixes. -/
theorem and_tableMask (m : Mnemonic) (w : Word) :
    w &&& tableMask m = rowWord ⟨(rowOf m).fmt, opcodeOf w, funct3Of w, funct7Of w⟩ := by
  cases m with
  | add | sub | slt | srl | or | and => exact and_maskR w
  | addi | lw | jalr => exact and_maskI w
  | sw => exact (and_maskI w).trans (packS_zero ..).symm
  | beq | bne | blt => exact (and_maskI w).trans (packB_zero ..).symm
  | jal => exact and_maskJ w

theorem rowWord_eq_iff (fmt : Format) (op op' : BitVec 7) (f3 f3' : BitVec 3) (f7 f7' : BitVec 7) :
    rowWord ⟨fmt, op, f3, f7⟩ = rowWord ⟨fmt, op', f3', f7'⟩ ↔
      op = op' ∧ (fmt ≠ .J → f3 = f3') ∧ (fmt = .R → f7 = f7') := by
  constructor
  · intro h
    have hop := congrArg opcodeOf h
    have hf3 := congrArg funct3Of h
    have hf7 := congrArg funct7Of h
    clear h
    cases fmt <;> simp_all [rowWord, pack]
  · rintro ⟨rfl, hf3, hf7⟩
    cases fmt <;> simp_all [rowWord, pack]

theorem inRow_iff (m : Mnemonic) (w : Word) : inRow m w ↔ rowMatches (rowOf m) w = true := by
  rw [inRow, and_tableMask, tableMatch_eq_rowWord, rowMatches_iff]
  exact rowWord_eq_iff ..

/-- Settles O11: the masks say what the row match says, and the rows are disjoint. -/
theorem decodingFollowsTheMasks : Obligations.DecodingFollowsTheMasks := by
  unfold Obligations.DecodingFollowsTheMasks
  simp only [inRow_iff]
  refine ⟨fun w m => ⟨?_, fun h => ⟨_, decode_of_rowMatches h, mnemonicOf_instrOf m w⟩⟩, fun w m m' => eq_of_rowMatches⟩
  rintro ⟨i, hi, rfl⟩
  exact ((decode_eq_ok_iff w i).mp hi).1

/-- Settles O12: with no row, the opcode's format decides between the two names. -/
theorem everyOtherWordIsRejectedByName : Obligations.EveryOtherWordIsRejectedByName := by
  unfold Obligations.EveryOtherWordIsRejectedByName
  simp only [inRow_iff]
  exact fun w hrow => ⟨decode_of_not_supported hrow, decode_of_supported hrow⟩

end Sys2Proof.Machine
end

section
/-! Encoder and decoder undo each other (30_encoding.md R67 to R78): first the two blocks, then whole instructions. -/

namespace Sys2Proof.Machine

/-! ## What the decoder reads of a packed immediate -/

/-- A number in the signed 12-bit range survives its pattern. -/
theorem sext_ofInt_twelve {imm : Int} (hlo : -2048 ≤ imm) (hhi : imm ≤ 2047) : sext (BitVec.ofInt 12 imm) = imm := by
  rw [sext_eq_sub, toNat_ofInt_twelve]
  omega

/-- Clearing bit 0 rounds down to an even number. -/
theorem toNat_and_not_one {n : Nat} (v : BitVec n) : (v &&& ~~~1#n).toNat = v.toNat - v.toNat % 2 := by
  have hshift : v &&& ~~~1#n = v >>> 1 <<< 1 := by
    apply BitVec.eq_of_getLsbD_eq
    intro k hk
    cases k <;> simp [hk, Nat.add_comm]
  have hv := v.isLt
  rw [hshift, BitVec.toNat_shiftLeft, BitVec.toNat_ushiftRight, Nat.shiftRight_eq_div_pow, Nat.shiftLeft_eq, pow_one,
    Nat.mod_eq_of_lt (by omega)]
  omega

theorem sext_and_not_one_thirteen {imm : Int} (hlo : -4096 ≤ imm) (hhi : imm ≤ 4095) :
    sext (BitVec.ofInt 13 imm &&& 0x1FFE#13) = imm - imm % 2 := by
  have h : BitVec.ofInt 13 imm &&& 0x1FFE#13 = BitVec.ofInt 13 imm &&& ~~~1#13 := rfl
  rw [sext_eq_sub, h, toNat_and_not_one, toNat_ofInt_thirteen]
  omega

theorem sext_and_not_one_twentyOne {imm : Int} (hlo : -1048576 ≤ imm) (hhi : imm ≤ 1048575) :
    sext (BitVec.ofInt 21 imm &&& 0x1FFFFE#21) = imm - imm % 2 := by
  have h : BitVec.ofInt 21 imm &&& 0x1FFFFE#21 = BitVec.ofInt 21 imm &&& ~~~1#21 := rfl
  rw [sext_eq_sub, h, toNat_and_not_one, toNat_ofInt_twentyOne]
  omega
theorem immI_packI_of_fits (op : BitVec 7) (f3 : BitVec 3) (rd rs1 : Reg) {imm : Int} (hlo : -2048 ≤ imm)
    (hhi : imm ≤ 2047) : immI (packI op f3 rd rs1 imm) = imm := (immI_packI ..).trans (sext_ofInt_twelve hlo hhi)

theorem immS_packS_of_fits (op : BitVec 7) (f3 : BitVec 3) (rs1 rs2 : Reg) {imm : Int} (hlo : -2048 ≤ imm)
    (hhi : imm ≤ 2047) : immS (packS op f3 rs1 rs2 imm) = imm := (immS_packS ..).trans (sext_ofInt_twelve hlo hhi)

theorem immB_packB_of_fits (op : BitVec 7) (f3 : BitVec 3) (rs1 rs2 : Reg) {imm : Int} (hlo : -4096 ≤ imm)
    (hhi : imm ≤ 4095) : immB (packB op f3 rs1 rs2 imm) = imm - imm % 2 :=
  (immB_packB ..).trans (sext_and_not_one_thirteen hlo hhi)

theorem immJ_packJ_of_fits (op : BitVec 7) (rd : Reg) {imm : Int} (hlo : -1048576 ≤ imm) (hhi : imm ≤ 1048575) :
    immJ (packJ op rd imm) = imm - imm % 2 := (immJ_packJ ..).trans (sext_and_not_one_twentyOne hlo hhi)

/-! ## What the encoder packs of the fields of a word -/

/-- A pattern survives the number it stands for. -/
theorem ofInt_sext {n : Nat} (v : BitVec n) : BitVec.ofInt n (sext v) = v := by
  rw [sext_eq_toInt, BitVec.ofInt_toInt]

theorem regBits_toFin (v : BitVec 5) : regBits v.toFin = v := BitVec.eq_of_toNat_eq (toNat_regBits _)

theorem packR_fields (w : Word) :
    packR (opcodeOf w) (funct3Of w) (funct7Of w) (rdOf w) (rs1Of w) (rs2Of w) = w := by
  apply BitVec.eq_of_getLsbD_eq
  intro k hk
  interval_cases k <;>
    simp only [packR, opcodeOf, funct3Of, funct7Of, rdOf, rs1Of, rs2Of, regBits_toFin, BitVec.getLsbD_cast,
      BitVec.getLsbD_append, BitVec.getLsbD_extractLsb'] <;>
    simp

theorem packI_fields (w : Word) : packI (opcodeOf w) (funct3Of w) (rdOf w) (rs1Of w) (immI w) = w := by
  apply BitVec.eq_of_getLsbD_eq
  intro k hk
  interval_cases k <;>
    simp only [packI, opcodeOf, funct3Of, rdOf, rs1Of, regBits_toFin, immI, ofInt_sext, BitVec.getLsbD_cast,
      BitVec.getLsbD_append, BitVec.getLsbD_extractLsb'] <;>
    simp

theorem packS_fields (w : Word) : packS (opcodeOf w) (funct3Of w) (rs1Of w) (rs2Of w) (immS w) = w := by
  apply BitVec.eq_of_getLsbD_eq
  intro k hk
  interval_cases k <;>
    simp only [packS, opcodeOf, funct3Of, rs1Of, rs2Of, regBits_toFin, immS, ofInt_sext, BitVec.getLsbD_cast,
      BitVec.getLsbD_append, BitVec.getLsbD_extractLsb'] <;>
    simp

theorem packB_fields (w : Word) : packB (opcodeOf w) (funct3Of w) (rs1Of w) (rs2Of w) (immB w) = w := by
  apply BitVec.eq_of_getLsbD_eq
  intro k hk
  interval_cases k <;>
    simp only [packB, opcodeOf, funct3Of, rs1Of, rs2Of, regBits_toFin, immB, ofInt_sext, BitVec.getLsbD_cast,
      BitVec.getLsbD_append, BitVec.getLsbD_extractLsb'] <;>
    simp

theorem packJ_fields (w : Word) : packJ (opcodeOf w) (rdOf w) (immJ w) = w := by
  apply BitVec.eq_of_getLsbD_eq
  intro k hk
  interval_cases k <;>
    simp only [packJ, opcodeOf, rdOf, regBits_toFin, immJ, ofInt_sext, BitVec.getLsbD_cast,
      BitVec.getLsbD_append, BitVec.getLsbD_extractLsb'] <;>
    simp

theorem fitsImm12_iff (imm : Int) : fitsImm12 imm = true ↔ -2048 ≤ imm ∧ imm ≤ 2047 := by simp [fitsImm12]

/-- The immediate a format delivers is in the range the validator admits for it. -/
theorem immFits_immOf (fmt : Format) (w : Word) : immFits fmt ((immOf fmt w).getD 0) = true := by
  cases fmt with
  | R => rfl
  | I => exact (fitsImm12_iff _).mpr (immI_bounds w)
  | S => exact (fitsImm12_iff _).mpr (immS_bounds w)
  | B =>
    obtain ⟨hlo, hhi, -⟩ := immB_bounds_and_even w
    exact (immFits_B_iff _).mpr ⟨hlo, Int.le_trans hhi (by decide)⟩
  | J =>
    obtain ⟨hlo, hhi, -⟩ := immJ_bounds_and_even w
    exact (immFits_J_iff _).mpr ⟨hlo, Int.le_trans hhi (by decide)⟩

/-- In whatever format a word is read, its fields pack to it: every bit stands in one field. -/
theorem encodeFields_fields (fmt : Format) (w : Word) :
    encodeFields ⟨fmt, opcodeOf w, funct3Of w, funct7Of w⟩ ⟨rdOf w, rs1Of w, rs2Of w, (immOf fmt w).getD 0⟩
      = .ok w := by
  refine (encodeFields_eq_ok_iff ..).mpr ⟨immFits_immOf fmt w, ?_⟩
  cases fmt with
  | R => exact packR_fields w
  | I => exact packI_fields w
  | S => exact packS_fields w
  | B => exact packB_fields w
  | J => exact packJ_fields w

theorem opcodeOf_pack (r : Row) (x : EncoderInput) : opcodeOf (pack r x) = r.opcode := by
  obtain ⟨fmt, op, f3, f7⟩ := r
  cases fmt <;> simp [pack]

/-- The encoder's fields read back from its word (R78, C3). -/
theorem immOf_pack (r : Row) (x : EncoderInput) (h : immFits r.fmt x.imm = true) :
    (r.fmt = .I ∨ r.fmt = .S → immOf r.fmt (pack r x) = some x.imm) ∧
    (r.fmt = .B ∨ r.fmt = .J → immOf r.fmt (pack r x) = some (x.imm - x.imm % 2)) := by
  obtain ⟨fmt, op, f3, f7⟩ := r
  cases fmt with
  | R => simp
  | I | S =>
    obtain ⟨hlo, hhi⟩ := (fitsImm12_iff _).mp h
    simp [immOf, pack, immI_packI_of_fits, immS_packS_of_fits, hlo, hhi]
  | B =>
    obtain ⟨hlo, hhi⟩ := (immFits_B_iff _).mp h
    simp [immOf, pack, immB_packB_of_fits, hlo, hhi]
  | J =>
    obtain ⟨hlo, hhi⟩ := (immFits_J_iff _).mp h
    simp [immOf, pack, immJ_packJ_of_fits, hlo, hhi]

/-- Settles O4: forward by the field lemmas of the packed word's format, back since every bit stands in one field. -/
theorem fieldsSurviveEncoding : Obligations.FieldsSurviveEncoding := by
  unfold Obligations.FieldsSurviveEncoding
  refine ⟨fun r x w h => ?_, fun w fmt h => ?_⟩
  · obtain ⟨fits, rfl⟩ := (encodeFields_eq_ok_iff r x w).mp h
    obtain ⟨immIS, immBJ⟩ := immOf_pack r x fits
    have delivered : formatOf r.opcode = some r.fmt →
        (decodeFields (pack r x)).fmt = some r.fmt ∧ (decodeFields (pack r x)).imm = immOf r.fmt (pack r x) := by
      intro hfmt
      have : (decodeFields (pack r x)).fmt = some r.fmt := by rw [decodeFields, opcodeOf_pack, hfmt]
      exact ⟨this, by rw [decodeFields_imm, this, Option.bind_some]⟩
    refine ⟨opcodeOf_pack r x, ?_, ?_, ?_, ?_, ?_, immIS, immBJ, delivered⟩
    all_goals
      obtain ⟨fmt, op, f3, f7⟩ := r
      cases fmt <;> simp [decodeFields, pack]
  · rw [decodeFields_imm, h]
    exact encodeFields_fields fmt w

/-! ## Whole instructions -/

/-- Each instruction's word matches its row, whatever the operands. -/
theorem rowMatches_wordOf (i : Instr) : rowMatches (rowOf (mnemonicOf i)) (wordOf i) = true := by
  cases i with
  | add => exact Laws.EncodesItsRow.add ..
  | sub => exact Laws.EncodesItsRow.sub ..
  | slt => exact Laws.EncodesItsRow.slt ..
  | srl => exact Laws.EncodesItsRow.srl ..
  | or => exact Laws.EncodesItsRow.or ..
  | and => exact Laws.EncodesItsRow.and ..
  | addi => exact Laws.EncodesItsRow.addi ..
  | lw => exact Laws.EncodesItsRow.lw ..
  | jalr => exact Laws.EncodesItsRow.jalr ..
  | sw => exact Laws.EncodesItsRow.sw ..
  | beq => exact Laws.EncodesItsRow.beq ..
  | bne => exact Laws.EncodesItsRow.bne ..
  | blt => exact Laws.EncodesItsRow.blt ..
  | jal => exact Laws.EncodesItsRow.jal ..

theorem fitsOffset13_iff (off : Int) : fitsOffset13 off = true ↔ -4096 ≤ off ∧ off ≤ 4094 ∧ off % 2 = 0 := by
  simp [fitsOffset13, and_assoc]

theorem fitsOffset21_iff (off : Int) : fitsOffset21 off = true ↔ -1048576 ≤ off ∧ off ≤ 1048574 ∧ off % 2 = 0 := by
  simp [fitsOffset21, and_assoc]

/-- A well-formed instruction's immediate is one the validator admits. -/
theorem immFits_of_wellFormed {i : Instr} (h : i.wellFormed = true) :
    immFits (rowOf (mnemonicOf i)).fmt (encoderInput i).imm = true := by
  cases i with
  | add | sub | slt | srl | or | and => rfl
  | addi | lw | jalr | sw => exact h
  | beq | bne | blt =>
    obtain ⟨hlo, hhi, -⟩ := (fitsOffset13_iff _).mp h
    exact (immFits_B_iff _).mpr ⟨hlo, Int.le_trans hhi (by decide)⟩
  | jal =>
    obtain ⟨hlo, hhi, -⟩ := (fitsOffset21_iff _).mp h
    exact (immFits_J_iff _).mpr ⟨hlo, Int.le_trans hhi (by decide)⟩

/-- The operands of a well-formed instruction are those of its word. -/
theorem instrOf_wordOf {i : Instr} (h : i.wellFormed = true) : instrOf (mnemonicOf i) (wordOf i) = i := by
  cases i with
  | add | sub | slt | srl | or | and => simp [instrOf, mnemonicOf, wordOf, pack, rowOf, encoderInput]
  | addi | lw | jalr | sw =>
    obtain ⟨hlo, hhi⟩ := (fitsImm12_iff _).mp h
    simp [instrOf, mnemonicOf, wordOf, pack, rowOf, encoderInput, immI_packI_of_fits, immS_packS_of_fits, hlo, hhi]
  | beq | bne | blt =>
    obtain ⟨hlo, hhi, heven⟩ := (fitsOffset13_iff _).mp h
    have hhi' := Int.le_trans hhi (by decide : (4094 : Int) ≤ 4095)
    simp [instrOf, mnemonicOf, wordOf, pack, rowOf, encoderInput, immB_packB_of_fits, hlo, hhi', heven]
  | jal =>
    obtain ⟨hlo, hhi, heven⟩ := (fitsOffset21_iff _).mp h
    have hhi' := Int.le_trans hhi (by decide : (1048574 : Int) ≤ 1048575)
    simp [instrOf, mnemonicOf, wordOf, pack, rowOf, encoderInput, immJ_packJ_of_fits, hlo, hhi', heven]

theorem decode_wordOf {i : Instr} (h : i.wellFormed = true) : decode (wordOf i) = .ok i :=
  (decode_eq_ok_iff ..).mpr ⟨rowMatches_wordOf i, (instrOf_wordOf h).symm⟩

/-- Settles O2: the validator admits the immediate, and the word decodes back. -/
theorem decodeOfEncodeIsTheInstruction : Obligations.DecodeOfEncodeIsTheInstruction := fun i h =>
  ⟨wordOf i, encodeFields_of_immFits (immFits_of_wellFormed h), decode_wordOf h⟩

/-- The operands a word carries are in range, the offsets even. -/
theorem instrOf_wellFormed (m : Mnemonic) (w : Word) : (instrOf m w).wellFormed = true := by
  cases m with
  | add | sub | slt | srl | or | and => rfl
  | addi | lw | jalr => exact (fitsImm12_iff _).mpr (immI_bounds w)
  | sw => exact (fitsImm12_iff _).mpr (immS_bounds w)
  | beq | bne | blt => exact (fitsOffset13_iff _).mpr (immB_bounds_and_even w)
  | jal => exact (fitsOffset21_iff _).mpr (immJ_bounds_and_even w)

/-- A matched word is packed from its row and its own operands. -/
theorem wordOf_instrOf {m : Mnemonic} {w : Word} (h : rowMatches (rowOf m) w = true) : wordOf (instrOf m w) = w := by
  obtain ⟨hop, hf3, hf7⟩ := (rowMatches_iff _ w).mp h
  cases m with
  | add | sub | slt | srl | or | and =>
    have e := packR_fields w
    rw [hop, hf3 (by decide), hf7 rfl] at e
    exact e
  | addi | lw | jalr =>
    have e := packI_fields w
    rw [hop, hf3 (by decide)] at e
    exact e
  | sw =>
    have e := packS_fields w
    rw [hop, hf3 (by decide)] at e
    exact e
  | beq | bne | blt =>
    have e := packB_fields w
    rw [hop, hf3 (by decide)] at e
    exact e
  | jal =>
    have e := packJ_fields w
    rw [hop] at e
    exact e

/-- The word an instruction was decoded from is its packed word. -/
theorem wordOf_of_decode {w : Word} {i : Instr} (h : decode w = .ok i) : wordOf i = w := by
  obtain ⟨hm, hi⟩ := (decode_eq_ok_iff w i).mp h
  exact (congrArg wordOf hi).trans (wordOf_instrOf hm)

theorem wellFormed_of_decode {w : Word} {i : Instr} (h : decode w = .ok i) : i.wellFormed = true := by
  rw [((decode_eq_ok_iff w i).mp h).2]
  exact instrOf_wellFormed ..

/-- Settles O3: a decoded instruction is well-formed, so the encoder packs it, and to the word it came from. -/
theorem encodeOfDecodeIsTheWord : Obligations.EncodeOfDecodeIsTheWord := by
  unfold Obligations.EncodeOfDecodeIsTheWord
  intro w i h
  have wf := wellFormed_of_decode h
  exact ⟨wf, (encodeFields_eq_ok_iff ..).mpr ⟨immFits_of_wellFormed wf, wordOf_of_decode h⟩⟩

/-- Settles O1: each printed word by evaluation. -/
theorem printedWordsDecode : Obligations.PrintedWordsDecode := by
  unfold Obligations.PrintedWordsDecode
  decide

end Sys2Proof.Machine
end

section
/-! The text form of a word (00_scope.md R8, 30_encoding.md R92). -/

namespace Sys2Proof.Machine

/-- A digit at the end counts once; what stands before it doubles. -/
theorem binaryValue_concat (cs : List Char) (b : Bool) (acc : Nat) :
    binaryValue (cs ++ [if b then '1' else '0']) acc = (binaryValue cs acc).map fun n => 2 * n + b.toNat := by
  induction cs generalizing acc with
  | nil => cases b <;> rfl
  | cons c cs ih =>
    by_cases h0 : c = '0'
    · simpa [binaryValue, h0] using ih _
    by_cases h1 : c = '1'
    · simpa [binaryValue, h1] using ih _
    simp [binaryValue, h0, h1]

/-- The first `n` characters of the text form are the number of the word's top `n` bits. -/
theorem binaryValue_topBits (w : Word) (n : Nat) (hn : n ≤ 32) :
    binaryValue ((List.range n).map fun k => if w.getLsbD (31 - k) then '1' else '0') 0
      = some (w.toNat / 2 ^ (32 - n)) := by
  induction n with
  | zero => simpa [binaryValue] using (Nat.div_eq_of_lt w.isLt).symm
  | succ n ih =>
    have hexp : 32 - n = (32 - (n + 1)) + 1 := by omega
    have hbit : 31 - n = 32 - (n + 1) := by omega
    rw [List.range_succ, List.map_append, List.map_singleton, binaryValue_concat, ih (by omega), Option.map_some,
      BitVec.getLsbD, Nat.toNat_testBit, hbit, hexp, pow_succ, ← Nat.div_div_eq_div_mul, Nat.div_add_mod]

theorem toList_wordText (w : Word) :
    (wordText w).toList = (List.range 32).map fun k => if w.getLsbD (31 - k) then '1' else '0' := String.toList_ofList

theorem length_toList_wordText (w : Word) : (wordText w).toList.length = 32 := by simp [toList_wordText]

theorem textWord_wordText (w : Word) : textWord (wordText w) = some w := by
  rw [textWord, if_pos (length_toList_wordText w), toList_wordText, binaryValue_topBits w 32 le_rfl]
  simp

/-- Settles O13: the text is a list of 32 bits, and their value is the word's number. -/
theorem textFormReadsBack : Obligations.TextFormReadsBack := by
  unfold Obligations.TextFormReadsBack
  refine fun w => ⟨length_toList_wordText w, fun k hk => ?_, textWord_wordText w⟩
  simp [toList_wordText, List.getElem?_range hk]

end Sys2Proof.Machine
end

section
/-! The values the instructions compute, as arithmetic on the numbers of words (00_scope.md R9, 41_alu_rtype.md). -/

namespace Sys2Proof.Machine

/-- A 32-bit sum with a signed immediate wraps modulo `2^32`. -/
theorem toNat_addImm (v : Word) (imm : Int) : ((addImm v imm).toNat : Int) = (v.toNat + imm) % 2 ^ 32 := by
  rw [addImm, BitVec.toNat_add, BitVec.toNat_ofInt]
  omega

theorem addImm_eq_ofInt (v : Word) (imm : Int) : addImm v imm = BitVec.ofInt 32 ((v.toNat + imm) % 2 ^ 32) := by
  apply BitVec.eq_of_toNat_eq
  have h := toNat_addImm v imm
  rw [BitVec.toNat_ofInt]
  omega

theorem addImm_zero (v : Word) : addImm v 0 = v := by simp [addImm]

/-- Settles O30: the sum with an immediate is the one addressing mode. -/
theorem effectiveAddressWraps : Obligations.EffectiveAddressWraps := fun s rs1 imm => toNat_addImm (s.readReg rs1) imm

theorem add_eq_ofNat (a b : Word) : a + b = BitVec.ofNat 32 ((a.toNat + b.toNat) % 2 ^ 32) := by
  apply BitVec.eq_of_toNat_eq
  simp

theorem sub_eq_ofInt (a b : Word) : a - b = BitVec.ofInt 32 ((a.toNat - b.toNat : Int) % 2 ^ 32) := by
  apply BitVec.eq_of_toNat_eq
  have ha := a.isLt
  have hb := b.isLt
  rw [BitVec.toNat_sub, BitVec.toNat_ofInt]
  omega

/-- The model's signed reading is the library's. -/
theorem signed_eq_toInt (v : Word) : signed v = v.toInt := by
  have hv := v.isLt
  rw [signed, BitVec.toInt_eq_toNat_cond]
  split <;> split <;> omega

theorem boolWord_signedLess (a b : Word) : boolWord (signedLess a b) = if a.toInt < b.toInt then 1 else 0 := by
  simp [boolWord, signedLess, signed_eq_toInt]

theorem shiftAmount_eq_mod (v : Word) : shiftAmount v = v.toNat % 32 := by
  simp [shiftAmount]

theorem ushiftRight_eq_ofNat (a : Word) (n : Nat) : a >>> n = BitVec.ofNat 32 (a.toNat / 2 ^ n) := by
  apply BitVec.eq_of_toNat_eq
  rw [BitVec.toNat_ushiftRight, Nat.shiftRight_eq_div_pow, BitVec.toNat_ofNat,
    Nat.mod_eq_of_lt (Nat.lt_of_le_of_lt (Nat.div_le_self ..) a.isLt)]

/-- The target of JALR is the sum less its last bit (R141, C2). -/
theorem toNat_indirectTarget (s : State) (rs1 : Reg) (imm : Int) :
    (indirectTarget s rs1 imm).toNat = (effectiveAddress s rs1 imm).toNat - (effectiveAddress s rs1 imm).toNat % 2 :=
  toNat_and_not_one (effectiveAddress s rs1 imm)

theorem indirectTarget_eq_ofInt (s : State) (rs1 : Reg) (imm : Int) {sum : Int}
    (hsum : sum = ((s.readReg rs1).toNat + imm) % 2 ^ 32) :
    indirectTarget s rs1 imm = BitVec.ofInt 32 (sum - sum % 2) := by
  apply BitVec.eq_of_toNat_eq
  have h : ((effectiveAddress s rs1 imm).toNat : Int) = sum := (toNat_addImm ..).trans hsum.symm
  rw [toNat_indirectTarget, BitVec.toNat_ofInt]
  omega

end Sys2Proof.Machine
end

section
/-! The instructions one by one (41_alu_rtype.md to 45_jump.md): each family's effect once, then its members. -/

namespace Sys2Proof.Machine

/-! ## One register written -/

theorem onlyReg_writeReg_retire (s : State) (rd : Reg) (v n : Word) : OnlyReg rd v s ((s.writeReg rd v).retire n) :=
  fun r => (State.readReg_retire ..).trans (State.readReg_writeReg s rd r v)

theorem sameMemory_of_dmem_eq {s t : State} (h : t.dmem = s.dmem) : SameMemory s t := fun a => by rw [h]

theorem sameProgram_writeReg_retire (s : State) (rd : Reg) (v n : Word) :
    SameProgram s ((s.writeReg rd v).retire n) := by simp [SameProgram]

theorem writesAndAdvances_of_exec {i : Instr} {rd : Reg} {v : Word} {s : State}
    (h : exec i s = .next ((s.writeReg rd v).retire (nextPc s))) : WritesAndAdvances i rd v s :=
  ⟨_, h, onlyReg_writeReg_retire s rd v _, rfl, sameMemory_of_dmem_eq (by simp), by simp,
    sameProgram_writeReg_retire ..⟩

theorem linksAndGoesTo_of_exec {i : Instr} {rd : Reg} {n : Word} {s : State}
    (h : exec i s = .next ((s.writeReg rd (nextPc s)).retire n)) : LinksAndGoesTo i rd n s :=
  ⟨_, h, rfl, onlyReg_writeReg_retire s rd _ n, sameMemory_of_dmem_eq (by simp), by simp,
    sameProgram_writeReg_retire ..⟩

/-- The encoding line of a register-register rule is the packed word of format R. -/
theorem encodingR_eq_packR (f3 : BitVec 3) (f7 : BitVec 7) (rd rs1 rs2 : Reg) :
    encodingR f7.toNat rs2 rs1 f3.toNat rd = packR 0b0110011#7 f3 f7 rd rs1 rs2 := by
  apply BitVec.eq_of_toNat_eq
  have hw := (packR 0b0110011#7 f3 f7 rd rs1 rs2).isLt
  rw [toNat_packR] at hw ⊢
  rw [encodingR, BitVec.toNat_ofNat]
  exact Nat.mod_eq_of_lt hw

/-- The word of an encoding line decodes to the instruction packed in its fields. -/
theorem decode_encodingR {i : Instr} (f3 : BitVec 3) (f7 : BitVec 7) (rd rs1 rs2 : Reg)
    (hi : wordOf i = packR 0b0110011#7 f3 f7 rd rs1 rs2) (wf : i.wellFormed = true) :
    decode (encodingR f7.toNat rs2 rs1 f3.toNat rd) = .ok i := by
  rw [encodingR_eq_packR, ← hi, decode_wordOf wf]

/-- Settles O23: the encoding line is ADD's own packed word, and the sum is the 32-bit one. -/
theorem addWritesTheSum : Obligations.AddWritesTheSum := by
  unfold Obligations.AddWritesTheSum
  intro rd rs1 rs2 s
  refine ⟨decode_encodingR 0b000 0b0000000 rd rs1 rs2 rfl rfl, ?_⟩
  rw [← add_eq_ofNat]
  exact writesAndAdvances_of_exec rfl

/-- Settles O24: as for ADD, with the 32-bit difference. -/
theorem subWritesTheDifference : Obligations.SubWritesTheDifference := by
  unfold Obligations.SubWritesTheDifference
  intro rd rs1 rs2 s
  refine ⟨decode_encodingR 0b000 0b0100000 rd rs1 rs2 rfl rfl, ?_⟩
  rw [← sub_eq_ofInt]
  exact writesAndAdvances_of_exec rfl

/-- Settles O25: as for ADD, with the signed comparison. -/
theorem sltWritesTheSignedComparison : Obligations.SltWritesTheSignedComparison := by
  unfold Obligations.SltWritesTheSignedComparison
  intro rd rs1 rs2 s
  refine ⟨decode_encodingR 0b010 0b0000000 rd rs1 rs2 rfl rfl, ?_⟩
  rw [← boolWord_signedLess]
  exact writesAndAdvances_of_exec rfl

/-- Settles O26: as for ADD, with the shift by the low five bits. -/
theorem srlShiftsByTheLowFiveBits : Obligations.SrlShiftsByTheLowFiveBits := by
  unfold Obligations.SrlShiftsByTheLowFiveBits
  intro rd rs1 rs2 s
  refine ⟨decode_encodingR 0b101 0b0000000 rd rs1 rs2 rfl rfl, ?_⟩
  rw [← shiftAmount_eq_mod, ← ushiftRight_eq_ofNat]
  exact writesAndAdvances_of_exec rfl

/-- Settles O27: as for ADD, with the bitwise or. -/
theorem orWritesTheBitwiseOr : Obligations.OrWritesTheBitwiseOr := by
  unfold Obligations.OrWritesTheBitwiseOr
  intro rd rs1 rs2 s
  exact ⟨decode_encodingR 0b110 0b0000000 rd rs1 rs2 rfl rfl,
    _, fun _ => BitVec.getLsbD_or, writesAndAdvances_of_exec rfl⟩

/-- Settles O28: as for ADD, with the bitwise and. -/
theorem andWritesTheBitwiseAnd : Obligations.AndWritesTheBitwiseAnd := by
  unfold Obligations.AndWritesTheBitwiseAnd
  intro rd rs1 rs2 s
  exact ⟨decode_encodingR 0b111 0b0000000 rd rs1 rs2 rfl rfl,
    _, fun _ => BitVec.getLsbD_and, writesAndAdvances_of_exec rfl⟩

/-- Settles O29: the sum with the immediate wraps. -/
theorem addiWritesTheSum : Obligations.AddiWritesTheSum := by
  unfold Obligations.AddiWritesTheSum
  intro rd rs1 imm s
  rw [← addImm_eq_ofInt]
  exact writesAndAdvances_of_exec rfl

/-- Settles O38: the jump's target is its own address plus the offset. -/
theorem jalLinksAndJumps : Obligations.JalLinksAndJumps := by
  unfold Obligations.JalLinksAndJumps
  intro rd off s
  rw [← addImm_eq_ofInt]
  exact linksAndGoesTo_of_exec rfl

/-- Settles O39: the target is computed from the registers before the link is written, and its last bit is cleared. -/
theorem jalrLinksAndJumpsToTheEvenSum : Obligations.JalrLinksAndJumpsToTheEvenSum := by
  unfold Obligations.JalrLinksAndJumpsToTheEvenSum
  intro rd rs1 imm s sum hsum
  rw [← indirectTarget_eq_ofInt s rs1 imm hsum]
  exact linksAndGoesTo_of_exec rfl

/-! ## Loads and stores -/

theorem withAlignedAddress_of_aligned {rs1 : Reg} {imm : Int} {s : State} (access : Word → State)
    (h : (effectiveAddress s rs1 imm).toNat % 4 = 0) :
    withAlignedAddress rs1 imm s access = .next (access (effectiveAddress s rs1 imm)) :=
  if_pos ((aligned_iff _).mpr h)

theorem withAlignedAddress_of_not_aligned {rs1 : Reg} {imm : Int} {s : State} (access : Word → State)
    (h : (effectiveAddress s rs1 imm).toNat % 4 ≠ 0) :
    withAlignedAddress rs1 imm s access = .next (s.raiseFault (.misalignedAccess (effectiveAddress s rs1 imm))) :=
  if_neg (mt (aligned_iff _).mp h)

theorem exec_lw (rd rs1 : Reg) (imm : Int) (s : State) :
    exec (.lw rd rs1 imm) s =
      withAlignedAddress rs1 imm s fun ea => (s.writeReg rd (s.loadWord ea)).retire (nextPc s) := rfl

theorem exec_sw (rs2 rs1 : Reg) (imm : Int) (s : State) :
    exec (.sw rs2 rs1 imm) s =
      withAlignedAddress rs1 imm s fun ea => (s.storeWord ea (s.readReg rs2)).retire (nextPc s) := rfl

/-- Settles O31: at an aligned address LW writes one register. -/
theorem lwLoadsTheAlignedWord : Obligations.LwLoadsTheAlignedWord := by
  unfold Obligations.LwLoadsTheAlignedWord
  intro rd rs1 imm s h
  exact writesAndAdvances_of_exec ((exec_lw ..).trans (withAlignedAddress_of_aligned _ h))

theorem onlyWord_storeWord_retire (s : State) (ea v n : Word) : OnlyWord ea v s ((s.storeWord ea v).retire n) :=
  fun a => memRead_memWrite s.dmem ea.toNat a v

theorem sameRegs_retire (s : State) (n : Word) : SameRegs s (s.retire n) := fun r => State.readReg_retire s n r

/-- Settles O32: at an aligned address SW writes one word. -/
theorem swStoresTheAlignedWord : Obligations.SwStoresTheAlignedWord := by
  unfold Obligations.SwStoresTheAlignedWord
  intro rs2 rs1 imm s h
  exact ⟨_, (exec_sw ..).trans (withAlignedAddress_of_aligned _ h), onlyWord_storeWord_retire s _ _ _,
    sameRegs_retire (s.storeWord _ _) _, rfl, rfl, rfl, rfl⟩

/-- Settles O33: the shared check of LW and SW fails. -/
theorem misalignedAccessFaults : Obligations.MisalignedAccessFaults := by
  unfold Obligations.MisalignedAccessFaults
  rintro r rs1 imm s _ rfl h
  exact ⟨(exec_lw ..).trans (withAlignedAddress_of_not_aligned _ h),
    (exec_sw ..).trans (withAlignedAddress_of_not_aligned _ h)⟩

/-! ## Branches -/

theorem goesTo_of_retire {i : Instr} {n : Word} {s : State} (h : exec i s = .next (s.retire n)) : GoesTo i n s.run s :=
  ⟨_, h, rfl, rfl, sameRegs_retire s n, sameMemory_of_dmem_eq rfl, rfl, rfl⟩

theorem goesTo_of_halt {i : Instr} {n : Word} {s : State} (h : exec i s = .next (s.retire n).halt) :
    GoesTo i n .halted s :=
  ⟨_, h, rfl, rfl, sameRegs_retire s n, sameMemory_of_dmem_eq rfl, rfl, rfl⟩

/-- What a branch does, by its condition and its form: only the fields of the virtual halt halt (R133, R134). -/
theorem goesTo_of_branchOn {cond : Word → Word → Bool} {i : Instr} {rs1 rs2 : Reg} {off : Int} {s : State}
    (h : exec i s = branchOn cond rs1 rs2 off s) :
    GoesTo i (if cond (s.readReg rs1) (s.readReg rs2) then relativeTarget s off else s.pc + 4)
      (if cond (s.readReg rs1) (s.readReg rs2) ∧ off = 0 ∧ rs1 = 0 ∧ rs2 = 0 then .halted else s.run) s := by
  rcases branchOn_cases cond rs1 rs2 off s with ⟨hc, ho, h1, h2, e⟩ | ⟨hc, hform, e⟩ | ⟨hc, e⟩
  · rw [if_pos hc, if_pos ⟨hc, ho, h1, h2⟩]
    exact goesTo_of_halt (h.trans e)
  · rw [if_pos hc, if_neg (fun c => hform c.2)]
    exact goesTo_of_retire (h.trans e)
  · rw [if_neg (by simp [hc]), if_neg (by simp [hc])]
    exact goesTo_of_retire (h.trans e)

theorem wordsEqual_iff (a b : Word) : wordsEqual a b = true ↔ a = b := by simp [wordsEqual]

theorem wordsDiffer_iff (a b : Word) : wordsDiffer a b = true ↔ a ≠ b := by simp [wordsDiffer]

theorem signedLess_iff (a b : Word) : signedLess a b = true ↔ a.toInt < b.toInt := by
  simp [signedLess, signed_eq_toInt]

/-- Settles O34: the halt's form compares register 0 with itself, so its condition holds by itself. -/
theorem beqBranchesOnEqual : Obligations.BeqBranchesOnEqual := by
  unfold Obligations.BeqBranchesOnEqual
  intro rs1 rs2 off s
  have h : GoesTo (.beq rs1 rs2 off) _ _ s := goesTo_of_branchOn rfl
  have hform : s.readReg rs1 = s.readReg rs2 ∧ off = 0 ∧ rs1 = 0 ∧ rs2 = 0 ↔ off = 0 ∧ rs1 = 0 ∧ rs2 = 0 :=
    and_iff_right_of_imp fun ⟨_, h1, h2⟩ => by rw [h1, h2]
  simpa only [wordsEqual_iff, hform, relativeTarget, addImm_eq_ofInt] using h

/-- Settles O35: in the halt's form the condition compares register 0 with itself and fails. -/
theorem bneBranchesOnDifferent : Obligations.BneBranchesOnDifferent := by
  unfold Obligations.BneBranchesOnDifferent
  intro rs1 rs2 off s
  have h : GoesTo (.bne rs1 rs2 off) _ _ s := goesTo_of_branchOn rfl
  have hform : ¬ (s.readReg rs1 ≠ s.readReg rs2 ∧ off = 0 ∧ rs1 = 0 ∧ rs2 = 0) :=
    fun ⟨hne, _, h1, h2⟩ => hne (by rw [h1, h2])
  simpa only [wordsDiffer_iff, if_neg hform, ite_not, relativeTarget, addImm_eq_ofInt] using h

theorem exec_blt_of_signedLt {s : State} (hmode : s.params.bltMode = .signedLt) (rs1 rs2 : Reg) (off : Int) :
    exec (.blt rs1 rs2 off) s = branchOn signedLess rs1 rs2 off s := by
  simp [exec, execBlt, hmode]

theorem exec_blt_of_fault {s : State} (hmode : s.params.bltMode = .fault) (rs1 rs2 : Reg) (off : Int) :
    exec (.blt rs1 rs2 off) s = .next (s.raiseFault (.unsupportedFunction (wordOf (.blt rs1 rs2 off)))) := by
  simp [exec, execBlt, hmode]

/-- Settles O36: in the halt's form the condition compares register 0 with itself and fails. -/
theorem bltBranchesOnSignedLess : Obligations.BltBranchesOnSignedLess := by
  unfold Obligations.BltBranchesOnSignedLess
  intro rs1 rs2 off s hmode
  have h := goesTo_of_branchOn (exec_blt_of_signedLt hmode rs1 rs2 off)
  have hform : ¬ ((s.readReg rs1).toInt < (s.readReg rs2).toInt ∧ off = 0 ∧ rs1 = 0 ∧ rs2 = 0) :=
    fun ⟨hlt, _, h1, h2⟩ => by rw [h1, h2] at hlt; exact lt_irrefl _ hlt
  simpa only [signedLess_iff, if_neg hform, relativeTarget, addImm_eq_ofInt] using h

end Sys2Proof.Machine
end

section
/-! One step of the engine (40_fetch_dispatch.md R100 to R107, 60_exceptions.md): what it answers for each state, and
from its answer back to what it did. -/

namespace Sys2Proof.Machine

/-! ## From the state to the answer -/

theorem step_of_misaligned {s : State} (hrun : s.run = .running) (h : s.pc.toNat % 4 ≠ 0) :
    step s = .next (s.raiseFault (.misalignedPC s.pc)) := by
  simp [step, hrun, ifetch, aligned, h]

theorem step_of_absent {s : State} (hrun : s.run = .running) (h : s.pc.toNat % 4 = 0)
    (hpast : s.imem.length ≤ s.pc.toNat / 4) : step s = .next s.exhaust := by
  simp [step, hrun, ifetch, aligned, h, List.getElem?_eq_none hpast]

theorem ifetch_of_fetchesWord {s : State} {w : Word} (h : FetchesWord s w) : ifetch s.imem s.pc = .word w := by
  obtain ⟨h4, hw⟩ := h
  simp [ifetch, aligned, h4, hw]

theorem step_of_decode_ok {s : State} {w : Word} {i : Instr} (hrun : s.run = .running) (hw : FetchesWord s w)
    (hd : decode w = .ok i) : step s = exec i s := by
  simp [step, hrun, ifetch_of_fetchesWord hw, hd]

theorem step_of_decode_error {s : State} {w : Word} {r : FaultReason} (hrun : s.run = .running) (hw : FetchesWord s w)
    (hd : decode w = .error r) : step s = .next (s.raiseFault r) := by
  simp [step, hrun, ifetch_of_fetchesWord hw, hd]

theorem step_of_ended {s : State} (h : s.run ≠ .running) : step s = .fault (.runEnded s.run) := by
  cases hr : s.run with
  | running => exact absurd hr h
  | halted | exhausted | faulted _ => simp [step, hr]

/-- Settles O14: the fetch answers the word, and its decoding is dispatched. -/
theorem stepRunsTheDecodedInstruction : Obligations.StepRunsTheDecodedInstruction := by
  rintro s i ⟨hrun, w, hw, hd⟩
  exact step_of_decode_ok hrun hw hd

/-- Settles O15: the two names of O12, raised. -/
theorem wordsInNoRowFault : Obligations.WordsInNoRowFault := by
  intro s w hrun hw hrow
  obtain ⟨unsupported, supported⟩ := everyOtherWordIsRejectedByName w hrow
  exact ⟨fun h => step_of_decode_error hrun hw (unsupported h), fun h => step_of_decode_error hrun hw (supported h)⟩

/-- Settles O16: the fetch refuses before it looks at the store. -/
theorem misalignedPcFaults : Obligations.MisalignedPcFaults := fun _ => step_of_misaligned

/-- Settles O37: the packed word that BLT records is the fetched one. -/
theorem bltFaultsWithItsWord : Obligations.BltFaultsWithItsWord := by
  intro s w rs1 rs2 off hmode hrun hw hd
  rw [step_of_decode_ok hrun hw hd, exec_blt_of_fault hmode, wordOf_of_decode hd]
  rfl

/-- Settles O19: each of the four things a step can be is a next state, and an instruction always has one. -/
theorem runningStepAlwaysHasNextState : Obligations.RunningStepAlwaysHasNextState := by
  intro s hrun
  rcases step_cases s hrun with ⟨-, h⟩ | ⟨-, -, h⟩ | ⟨_, _, -, -, h⟩ | ⟨_, i, -, -, h⟩
  · exact ⟨_, h⟩
  · exact ⟨_, h⟩
  · exact ⟨_, h⟩
  · obtain ⟨t, ht, -⟩ := exec_cases i s
    exact ⟨t, h.trans ht⟩

/-! ## From the answer back -/

/-- The shapes of `exec_cases` for a given next state. -/
theorem exec_shapes {i : Instr} {s t : State} (h : exec i s = .next t) :
    WriteShape i s t ∨ StoreShape i s t ∨ GoShape i s t ∨ HaltShape i s t ∨ FaultShape i s t := by
  obtain ⟨t', ht', shape⟩ := exec_cases i s
  rw [h] at ht'
  cases ht'
  exact shape

/-- Everything a step to `t` can have been. -/
theorem step_next_cases {s t : State} (h : step s = .next t) :
    (s.pc.toNat % 4 ≠ 0 ∧ t = s.raiseFault (.misalignedPC s.pc)) ∨
    (s.pc.toNat % 4 = 0 ∧ s.imem[s.pc.toNat / 4]? = none ∧ t = s.exhaust) ∨
    (∃ w r, FetchesWord s w ∧ decode w = .error r ∧ t = s.raiseFault r) ∨
    (∃ w i, FetchesWord s w ∧ decode w = .ok i ∧ exec i s = .next t) := by
  rcases step_cases s (running_of_step s t h) with ⟨h4, e⟩ | ⟨h4, hn, e⟩ | ⟨w, r, hw, hd, e⟩ | ⟨w, i, hw, hd, e⟩
  · exact .inl ⟨h4, Host.Outcome.next.inj (h.symm.trans e)⟩
  · exact .inr (.inl ⟨h4, hn, Host.Outcome.next.inj (h.symm.trans e)⟩)
  · exact .inr (.inr (.inl ⟨w, r, hw, hd, Host.Outcome.next.inj (h.symm.trans e)⟩))
  · exact .inr (.inr (.inr ⟨w, i, hw, hd, e.symm.trans h⟩))

/-- The instruction completes: one of the shapes of an effect that is no fault. -/
def Completes (i : Instr) (s t : State) : Prop :=
  WriteShape i s t ∨ StoreShape i s t ∨ GoShape i s t ∨ HaltShape i s t

theorem completes_or_faultShape {i : Instr} {s t : State} (h : exec i s = .next t) :
    Completes i s t ∨ FaultShape i s t := by
  rcases exec_shapes h with hw | hs | hg | hh | hf
  · exact .inl (.inl hw)
  · exact .inl (.inr (.inl hs))
  · exact .inl (.inr (.inr (.inl hg)))
  · exact .inl (.inr (.inr (.inr hh)))
  · exact .inr hf

theorem completes_or_raiseFault {i : Instr} {s t : State} (h : exec i s = .next t) :
    Completes i s t ∨ ∃ r, t = s.raiseFault r := by
  rcases completes_or_faultShape h with hc | ⟨_, _, _, -, -, ht⟩ | ⟨_, _, _, -, -, ht⟩
  · exact .inl hc
  · exact .inr ⟨_, ht⟩
  · exact .inr ⟨_, ht⟩

theorem completes_of_noFault {i : Instr} {s t : State} (h : exec i s = .next t) (hn : NoFault t) : Completes i s t := by
  rcases completes_or_raiseFault h with hc | ⟨r, rfl⟩
  · exact hc
  · exact absurd rfl (hn r)

/-- A step faults, exhausts the stream, or completes the instruction it fetched. -/
theorem step_outcomes {s t : State} (h : step s = .next t) :
    (∃ r, t = s.raiseFault r) ∨ t = s.exhaust ∨
      ∃ w i, FetchesWord s w ∧ decode w = .ok i ∧ exec i s = .next t ∧ Completes i s t := by
  rcases step_next_cases h with ⟨-, ht⟩ | ⟨-, -, ht⟩ | ⟨_, r, -, -, ht⟩ | ⟨w, i, hw, hd, he⟩
  · exact .inl ⟨_, ht⟩
  · exact .inr (.inl ht)
  · exact .inl ⟨r, ht⟩
  · rcases completes_or_raiseFault he with hc | hr
    · exact .inr (.inr ⟨w, i, hw, hd, he, hc⟩)
    · exact .inl hr

/-! ## What a completed instruction leaves -/

/-- Only the virtual halt changes the run state. -/
theorem run_of_completes {i : Instr} {s t : State} (h : Completes i s t) : t.run = s.run ∨ HaltShape i s t := by
  rcases h with ⟨_, _, _, rfl, -⟩ | ⟨_, _, _, -, -, rfl⟩ | ⟨_, _, _, _, -, -, rfl, -⟩ | hh
  · exact .inl (by simp)
  · exact .inl rfl
  · exact .inl rfl
  · exact .inr hh

theorem run_of_haltShape {i : Instr} {s t : State} (h : HaltShape i s t) : t.run = .halted := by
  obtain ⟨-, rfl⟩ := h
  rfl

theorem get_zero_of_completes {i : Instr} {s t : State} (h : Completes i s t) : t.regs.get 0 = 0 := by
  rcases h with ⟨_, _, _, rfl, -⟩ | ⟨_, _, _, -, -, rfl⟩ | ⟨_, _, _, _, -, -, rfl, -⟩ | ⟨-, rfl⟩
  · exact State.retire_get_zero _ _
  · exact State.retire_get_zero _ _
  · exact State.retire_get_zero _ _
  · exact State.retire_get_zero s (relativeTarget s 0)

theorem sameProgram_of_completes {i : Instr} {s t : State} (h : Completes i s t) : SameProgram s t := by
  rcases h with ⟨_, _, _, rfl, -⟩ | ⟨_, _, _, -, -, rfl⟩ | ⟨_, _, _, _, -, -, rfl, -⟩ | ⟨-, rfl⟩
  · exact sameProgram_writeReg_retire ..
  · exact ⟨rfl, rfl⟩
  · exact ⟨rfl, rfl⟩
  · exact ⟨rfl, rfl⟩

theorem dmem_of_completes {i : Instr} {s t : State} (h : Completes i s t) : t.dmem = s.dmem ∨ StoreShape i s t := by
  rcases h with ⟨_, _, _, rfl, -⟩ | hs | ⟨_, _, _, _, -, -, rfl, -⟩ | ⟨-, rfl⟩
  · exact .inl (by simp)
  · exact .inr hs
  · exact .inl rfl
  · exact .inl rfl

/-- The run state after a step of an instruction that completes. -/
theorem run_of_step_completes {i : Instr} {s t : State} (h : step s = .next t) (hc : Completes i s t) :
    t.run = .running ∨ HaltShape i s t :=
  (run_of_completes hc).imp_left fun e => e.trans (running_of_step s t h)

/-! ## The statements -/

/-- Settles O42: a fault and an ending change the run state alone, and no shape of an effect touches the two fields. -/
theorem noStepChangesTheProgram : Obligations.NoStepChangesTheProgram := by
  intro s t h
  rcases step_outcomes h with ⟨_, rfl⟩ | rfl | ⟨_, _, -, -, -, hc⟩
  · exact ⟨rfl, rfl⟩
  · exact ⟨rfl, rfl⟩
  · exact sameProgram_of_completes hc

/-- Settles O43: the one shape that changes memory is SW's. -/
theorem onlySwWritesMemory : Obligations.OnlySwWritesMemory := by
  intro i s t h hsw
  rcases completes_or_raiseFault h with hc | ⟨_, rfl⟩
  · rcases dmem_of_completes hc with hd | ⟨_, _, _, rfl, -⟩
    · exact hd
    · exact absurd rfl hsw
  · rfl

/-- Settles O40: a completed instruction re-pins register 0, and the other steps change no register. -/
theorem registerZeroIsHardWired : Obligations.RegisterZeroIsHardWired := by
  refine ⟨State.readReg_zero, fun _ _ => rfl, fun i s t h hn => get_zero_of_completes (completes_of_noFault h hn), ?_⟩
  intro s t h h0
  rcases step_outcomes h with ⟨_, rfl⟩ | rfl | ⟨_, _, -, -, -, hc⟩
  · exact h0
  · exact h0
  · exact get_zero_of_completes hc

/-- Settles O20: a step that ends `Faulted` went through `raiseFault`, since a completed instruction keeps `Running`
or halts. -/
theorem faultChangesOnlyTheRunState : Obligations.FaultChangesOnlyTheRunState := by
  intro s t r h hr
  rcases step_outcomes h with ⟨r', rfl⟩ | rfl | ⟨_, i, -, -, -, hc⟩
  · cases hr
    rfl
  · cases hr
  · rcases run_of_step_completes h hc with e | hh
    · rw [hr] at e
      cases e
    · rw [run_of_haltShape hh] at hr
      cases hr

/-- Settles O17: the fetch answers that there is no word, and exhaustion shows no snapshot. -/
theorem pcPastTheProgramExhausts : Obligations.PcPastTheProgramExhausts := by
  intro s hrun h4 hpast
  have h := step_of_absent hrun h4 hpast
  exact ⟨h, by simp [emitted, h]⟩

/-- Settles O18: the step answers only in the run state `Running`, and the dump only outside it. -/
theorem endedRunTakesNoStep : Obligations.EndedRunTakesNoStep := fun s h =>
  ⟨step_of_ended h, emitted_of_ended s h, if_pos (decide_eq_true h)⟩

end Sys2Proof.Machine
end

section
/-! The endings of a run (40_fetch_dispatch.md R106, 44_branch.md R133, 60_exceptions.md R150 to R155), the snapshots
(R105), and the invariant. -/

namespace Sys2Proof.Machine

/-! ## The virtual halt -/

theorem exec_virtualHalt (s : State) : exec (.beq 0 0 0) s = .next (s.retire (relativeTarget s 0)).halt := rfl

theorem wordOf_virtualHalt : wordOf (.beq 0 0 0) = 0x00000063#32 := by decide

theorem decode_virtualHalt : decode 0x00000063#32 = .ok (.beq 0 0 0) := by decide

theorem relativeTarget_zero (s : State) : relativeTarget s 0 = s.pc := addImm_zero s.pc

/-- A halting instruction was fetched as the one word of the virtual halt, since its word determines it. -/
theorem fetchesVirtualHalt {s t : State} {w : Word} {i : Instr} (hw : FetchesWord s w) (hd : decode w = .ok i)
    (hh : HaltShape i s t) : FetchesWord s 0x00000063#32 := by
  obtain ⟨rfl, -⟩ := hh
  rwa [← wordOf_virtualHalt, wordOf_of_decode hd]

/-- A step that ends `Halted` fetched the virtual halt and has its shape. -/
theorem haltShape_of_run_halted {s t : State} (h : step s = .next t) (hr : t.run = .halted) :
    FetchesWord s 0x00000063#32 ∧ HaltShape (.beq 0 0 0) s t := by
  rcases step_outcomes h with ⟨_, rfl⟩ | rfl | ⟨w, i, hw, hd, -, hc⟩
  · cases hr
  · cases hr
  · rcases run_of_step_completes h hc with e | hh
    · cases hr.symm.trans e
    · exact ⟨fetchesVirtualHalt hw hd hh, rfl, hh.2⟩

/-- Settles O21: forward since only the virtual halt has the halting shape, back by running it. -/
theorem haltExactlyOnTheVirtualHaltWord : Obligations.HaltExactlyOnTheVirtualHaltWord := by
  intro s t h
  refine ⟨⟨fun hr => (haltShape_of_run_halted h hr).1, fun hw => ?_⟩, fun hr => ?_⟩
  · have he := (step_of_decode_ok (running_of_step s t h) hw decode_virtualHalt).trans (exec_virtualHalt s)
    cases h.symm.trans he
    rfl
  · obtain ⟨-, -, rfl⟩ := haltShape_of_run_halted h hr
    exact ⟨relativeTarget_zero s, sameRegs_retire s (relativeTarget s 0), sameMemory_of_dmem_eq rfl⟩

/-! ## Snapshots -/

theorem emitted_of_step {s t : State} (h : step s = .next t) :
    emitted s = if t.run = .exhausted then none else some (snapshotOf t) := by rw [emitted, h]

theorem snapshotOf_regs_getElem? (t : State) (r : Reg) : (snapshotOf t).regs[r.val]? = some (t.readReg r) := by
  simp [snapshotOf]

/-- Settles O22: the snapshot is the one of the state after the step. -/
theorem stepShowsOneSnapshot : Obligations.StepShowsOneSnapshot := by
  intro s t h
  rw [emitted_of_step h]
  refine ⟨fun hr => if_pos hr, fun hr _ => ⟨snapshotOf t, if_neg hr, rfl, ?_, ?_, snapshotOf_regs_getElem? t⟩⟩
  · simp [snapshotOf]
  · exact snapshotOf_regs_getElem? t 0

/-! ## Every ending is explained -/

/-- The two names of a rejected word, with the reason for each. -/
theorem decode_error_cases {w : Word} {r : FaultReason} (h : decode w = .error r) :
    (r = .unsupportedOpcode (opcodeOf w) ∧ ¬ isSupportedOpcode (opcodeOf w)) ∨
    (r = .unsupportedFunction w ∧ isSupportedOpcode (opcodeOf w)) := by
  have hrow : ∀ m, ¬ rowMatches (rowOf m) w = true := fun m hm => by
    rw [decode_of_rowMatches hm] at h
    cases h
  by_cases hop : isSupportedOpcode (opcodeOf w)
  · exact .inr ⟨Except.error.inj (h.symm.trans (decode_of_supported hrow hop)), hop⟩
  · exact .inl ⟨Except.error.inj (h.symm.trans (decode_of_not_supported hrow hop)), hop⟩

theorem runExplained_of_running {t : State} (h : t.run = .running) : RunExplained t := by
  rw [RunExplained, h]
  trivial

/-! What each ending asks of the state it is raised in, which has the same pc and program. -/

theorem runExplained_misalignedPC {s : State} (h : s.pc.toNat % 4 ≠ 0) :
    RunExplained (s.raiseFault (.misalignedPC s.pc)) := by
  simpa [RunExplained] using h

theorem runExplained_exhaust {s : State} (h4 : s.pc.toNat % 4 = 0) (hn : s.imem[s.pc.toNat / 4]? = none) :
    RunExplained s.exhaust := by
  simpa [RunExplained, h4] using hn

theorem runExplained_unsupportedOpcode_iff {s : State} {op : BitVec 7} :
    RunExplained (s.raiseFault (.unsupportedOpcode op)) ↔
      ∃ w, FetchesWord s w ∧ op = opcodeOf w ∧ ¬ isSupportedOpcode op := Iff.rfl

theorem runExplained_unsupportedFunction_iff {s : State} {w : Word} :
    RunExplained (s.raiseFault (.unsupportedFunction w)) ↔
      FetchesWord s w ∧ isSupportedOpcode (opcodeOf w) ∧
        ∀ i, decode w = .ok i → mnemonicOf i = .blt ∧ s.params.bltMode = .fault := Iff.rfl

theorem runExplained_misalignedAccess_iff {s : State} {ea : Word} :
    RunExplained (s.raiseFault (.misalignedAccess ea)) ↔
      ea.toNat % 4 ≠ 0 ∧ ∃ w, FetchesWord s w ∧ ∃ (r b : Reg) (n : Int),
        (decode w = .ok (.lw r b n) ∨ decode w = .ok (.sw r b n)) ∧ ea = effectiveAddress s b n := Iff.rfl

theorem runExplained_decode_error {s : State} {w : Word} {r : FaultReason} (hw : FetchesWord s w)
    (hd : decode w = .error r) : RunExplained (s.raiseFault r) := by
  rcases decode_error_cases hd with ⟨rfl, hop⟩ | ⟨rfl, hop⟩
  · exact runExplained_unsupportedOpcode_iff.mpr ⟨w, hw, rfl, hop⟩
  · refine runExplained_unsupportedFunction_iff.mpr ⟨hw, hop, fun i hi => ?_⟩
    cases hd.symm.trans hi

/-- A halted state stands on the word it fetched. -/
theorem runExplained_halt {s t : State} (hw : FetchesWord s 0x00000063#32) (hh : HaltShape (.beq 0 0 0) s t) :
    RunExplained t := by
  obtain ⟨-, rfl⟩ := hh
  rw [relativeTarget_zero]
  exact hw

theorem opcodeOf_of_decode {w : Word} {i : Instr} (h : decode w = .ok i) : opcodeOf w = (rowOf (mnemonicOf i)).opcode :=
  ((rowMatches_iff _ w).mp ((decode_eq_ok_iff w i).mp h).1).1

/-- The two faults of an executed instruction: LW and SW at a misaligned address, and BLT in the mode `fault`. -/
theorem runExplained_faultShape {s t : State} {w : Word} {i : Instr} (hw : FetchesWord s w) (hd : decode w = .ok i)
    (hf : FaultShape i s t) : RunExplained t := by
  rcases hf with ⟨r, b, n, hi, ha, rfl⟩ | ⟨rs1, rs2, off, rfl, hmode, rfl⟩
  · have h4 : (effectiveAddress s b n).toNat % 4 ≠ 0 := by simpa [aligned] using ha
    have hi' : decode w = .ok (.lw r b n) ∨ decode w = .ok (.sw r b n) := by
      rcases hi with rfl | rfl
      · exact .inl hd
      · exact .inr hd
    exact runExplained_misalignedAccess_iff.mpr ⟨h4, w, hw, r, b, n, hi', rfl⟩
  · rw [wordOf_of_decode hd]
    have hop : isSupportedOpcode (opcodeOf w) := by
      rw [opcodeOf_of_decode hd]
      simp [isSupportedOpcode, mnemonicOf, rowOf]
    refine runExplained_unsupportedFunction_iff.mpr ⟨hw, hop, fun i hi => ?_⟩
    cases hd.symm.trans hi
    exact ⟨rfl, hmode⟩

/-- Settles O49: each way a step can go gives its own explanation. -/
theorem stepExplainsTheRunState : Obligations.StepExplainsTheRunState := by
  intro s t h
  rcases step_next_cases h with ⟨h4, rfl⟩ | ⟨h4, hn, rfl⟩ | ⟨w, r, hw, hd, rfl⟩ | ⟨w, i, hw, hd, he⟩
  · exact runExplained_misalignedPC h4
  · exact runExplained_exhaust h4 hn
  · exact runExplained_decode_error hw hd
  · rcases completes_or_faultShape he with hc | hf
    · rcases run_of_step_completes h hc with hr | hh
      · exact runExplained_of_running hr
      · exact runExplained_halt (fetchesVirtualHalt hw hd hh) ⟨rfl, hh.2⟩
    · exact runExplained_faultShape hw hd hf

/-- Settles O50: by O49 the recorded pc is the state's own and no multiple of 4, and it is even. -/
theorem misalignedPcIsTwoModFour : Obligations.MisalignedPcIsTwoModFour := by
  intro s t a heven h hr
  obtain ⟨ha, h4⟩ : a = t.pc ∧ a.toNat % 4 ≠ 0 := by
    simpa only [RunExplained, hr] using stepExplainsTheRunState s t h
  have hpc : t.pc = s.pc := by rw [faultChangesOnlyTheRunState s t _ h hr]
  rw [ha, hpc] at h4 ⊢
  exact ⟨rfl, by omega⟩

/-! ## The invariant -/

theorem toNat_nextPc_even {s : State} (h : s.pc.toNat % 2 = 0) : (nextPc s).toNat % 2 = 0 := by
  have hsum : (nextPc s).toNat = (s.pc.toNat + 4) % 2 ^ 32 := BitVec.toNat_add ..
  omega

theorem toNat_relativeTarget_even {s : State} {off : Int} (h : s.pc.toNat % 2 = 0) (hoff : off % 2 = 0) :
    (relativeTarget s off).toNat % 2 = 0 := by
  have hsum := toNat_addImm s.pc off
  rw [relativeTarget]
  omega

theorem toNat_indirectTarget_even (s : State) (rs1 : Reg) (imm : Int) : (indirectTarget s rs1 imm).toNat % 2 = 0 := by
  rw [toNat_indirectTarget]
  omega

/-- The offset of a decoded branch is even. -/
theorem even_branch_offset_of_decode {w : Word} {i : Instr} {rs1 rs2 : Reg} {off : Int} (hd : decode w = .ok i)
    (hi : i = .beq rs1 rs2 off ∨ i = .bne rs1 rs2 off ∨ i = .blt rs1 rs2 off) : off % 2 = 0 := by
  have wf := wellFormed_of_decode hd
  rcases hi with rfl | rfl | rfl <;> exact ((fitsOffset13_iff off).mp wf).2.2

/-- The offset of a decoded JAL is even. -/
theorem even_jal_offset_of_decode {w : Word} {rd : Reg} {off : Int} (hd : decode w = .ok (.jal rd off)) :
    off % 2 = 0 := ((fitsOffset21_iff off).mp (wellFormed_of_decode hd)).2.2

/-- A decoded instruction that completes goes to an even pc: each target is even, JALR's by its cleared bit. -/
theorem pc_even_of_completes {s t : State} {w : Word} {i : Instr} (heven : s.pc.toNat % 2 = 0) (hd : decode w = .ok i)
    (hc : Completes i s t) : t.pc.toNat % 2 = 0 := by
  rcases hc with ⟨_, _, n, rfl, -, hn⟩ | ⟨_, _, _, -, -, rfl⟩ | ⟨rs1, rs2, off, n, hi, -, rfl, hn⟩ | ⟨rfl, rfl⟩
  · rcases hn with ⟨rfl, -⟩ | ⟨off, rfl, rfl⟩ | ⟨b, k, rfl, rfl⟩
    · exact toNat_nextPc_even heven
    · exact toNat_relativeTarget_even heven (even_jal_offset_of_decode hd)
    · exact toNat_indirectTarget_even s b k
  · exact toNat_nextPc_even heven
  · rcases hn with rfl | rfl
    · exact toNat_nextPc_even heven
    · exact toNat_relativeTarget_even heven (even_branch_offset_of_decode hd hi)
  · exact toNat_relativeTarget_even heven rfl

theorem wf_of_completes {s t : State} {i : Instr} (hs : Memory.wf s.dmem = true) (hc : Completes i s t) :
    Memory.wf t.dmem = true := by
  rcases dmem_of_completes hc with hd | ⟨rs2, rs1, imm, -, ha, rfl⟩
  · rwa [hd]
  · exact State.storeWord_wf s _ _ ha hs

/-- Settles O48: a fault and an ending leave all three parts as they are, and a completed instruction keeps each. -/
theorem stepKeepsTheInvariant : Obligations.StepKeepsTheInvariant := by
  intro s t hinv h
  rcases step_outcomes h with ⟨_, rfl⟩ | rfl | ⟨w, i, -, hd, -, hc⟩
  · exact hinv
  · exact hinv
  · obtain ⟨-, heven, hwf⟩ := hinv
    exact ⟨get_zero_of_completes hc, pc_even_of_completes heven hd hc, wf_of_completes hwf hc⟩

end Sys2Proof.Machine
end

section
/-! What an instruction writes (40_fetch_dispatch.md R104): its destination or its memory word, and the pc. -/

namespace Sys2Proof.Machine

/-! ## The destination -/

/-- An instruction with a destination writes that register, unless it faults. -/
theorem exec_writes_destination {i : Instr} {s t : State} {rd : Reg} (h : exec i s = .next t)
    (hrd : destination i = some rd) : (∃ v n, t = (s.writeReg rd v).retire n) ∨ ∃ r, t = s.raiseFault r := by
  cases i with
  | add | sub | slt | srl | or | and | addi | jalr | jal =>
    cases hrd
    cases h
    exact .inl ⟨_, _, rfl⟩
  | lw =>
    cases hrd
    rw [exec_lw] at h
    rcases withAlignedAddress_cases _ _ s _ with ⟨-, e⟩ | ⟨-, e⟩
    · exact .inl ⟨_, _, Host.Outcome.next.inj (h.symm.trans e)⟩
    · exact .inr ⟨_, Host.Outcome.next.inj (h.symm.trans e)⟩
  | sw | beq | bne | blt => cases hrd

/-- SW and the branches have no destination, and change no register. -/
theorem sameRegs_of_destination_none {i : Instr} {s t : State} (hc : Completes i s t) (hrd : destination i = none) :
    SameRegs s t := by
  rcases hc with ⟨rd, v, n, -, hsw, hn⟩ | ⟨_, _, _, -, -, rfl⟩ | ⟨_, _, _, n, -, -, rfl, -⟩ | ⟨-, rfl⟩
  · cases i with
    | sw => exact absurd rfl hsw
    | beq | bne | blt => simp [maySetPc] at hn
    | add | sub | slt | srl | or | and | addi | lw | jalr | jal => cases hrd
  · exact sameRegs_retire (s.storeWord _ _) (nextPc s)
  · exact sameRegs_retire s n
  · exact sameRegs_retire s (relativeTarget s 0)

theorem readReg_of_ne_destination {i : Instr} {s t : State} {r : Reg} (h : exec i s = .next t)
    (hr : destination i ≠ some r) : t.readReg r = s.readReg r := by
  rcases completes_or_raiseFault h with hc | ⟨_, rfl⟩
  · cases hd : destination i with
    | none => exact sameRegs_of_destination_none hc hd r
    | some rd =>
      have hne : r ≠ rd := fun e => hr (by rw [hd, e])
      rcases exec_writes_destination h hd with ⟨v, n, rfl⟩ | ⟨_, rfl⟩
      · rw [State.readReg_retire, State.readReg_writeReg, if_neg hne]
        split
        · next h0 => rw [h0, State.readReg_zero]
        · rfl
      · rfl
  · rfl

theorem onlyWord_of_completes_sw {rs2 rs1 : Reg} {imm : Int} {s t : State} (hc : Completes (.sw rs2 rs1 imm) s t) :
    OnlyWord (effectiveAddress s rs1 imm) (s.readReg rs2) s t := by
  rcases hc with ⟨_, _, _, -, hsw, -⟩ | ⟨_, _, _, e, -, rfl⟩ | ⟨_, _, _, _, e, -⟩ | ⟨e, -⟩
  · exact absurd rfl hsw
  · cases e
    exact onlyWord_storeWord_retire s _ _ _
  · simp at e
  · cases e

/-! ## The next pc -/

theorem pc_of_not_maySetPc {i : Instr} {s t : State} (hc : Completes i s t) (hi : maySetPc i = false) :
    t.pc = s.pc + 4 := by
  rcases hc with ⟨_, _, _, rfl, -, ⟨rfl, -⟩ | ⟨_, rfl, -⟩ | ⟨_, _, rfl, -⟩⟩ | ⟨_, _, _, -, -, rfl⟩ |
    ⟨_, _, _, _, rfl | rfl | rfl, -⟩ | ⟨rfl, -⟩
  · rfl
  · cases hi
  · cases hi
  · rfl
  · cases hi
  · cases hi
  · cases hi
  · cases hi

/-- The pc after a branch, by its condition. -/
theorem pc_of_exec_branch {cond : Word → Word → Bool} {i : Instr} {rs1 rs2 : Reg} {off : Int} {s t : State}
    (hi : exec i s = branchOn cond rs1 rs2 off s) (h : exec i s = .next t) :
    t.pc = if cond (s.readReg rs1) (s.readReg rs2) then relativeTarget s off else s.pc + 4 := by
  obtain ⟨t', h', hpc, -⟩ := goesTo_of_branchOn hi
  cases h.symm.trans h'
  exact hpc

theorem pc_of_takesBranch {i : Instr} {off : Int} {s t : State} (h : exec i s = .next t) (ht : TakesBranch i off s) :
    t.pc = relativeTarget s off := by
  obtain ⟨rs1, rs2, ⟨rfl, hc⟩ | ⟨rfl, hc⟩ | ⟨rfl, hmode, hc⟩⟩ := ht
  · exact (pc_of_exec_branch rfl h).trans (if_pos ((wordsEqual_iff ..).mpr hc))
  · exact (pc_of_exec_branch rfl h).trans (if_pos ((wordsDiffer_iff ..).mpr hc))
  · exact (pc_of_exec_branch (exec_blt_of_signedLt hmode ..) h).trans (if_pos ((signedLess_iff ..).mpr hc))

/-- BLT where it is a fault does not complete. -/
theorem signedLt_of_exec_blt {rs1 rs2 : Reg} {off : Int} {s t : State} (h : exec (.blt rs1 rs2 off) s = .next t)
    (hn : NoFault t) : s.params.bltMode = .signedLt := by
  cases hmode : s.params.bltMode with
  | signedLt => rfl
  | fault =>
    cases h.symm.trans (exec_blt_of_fault hmode rs1 rs2 off)
    exact absurd rfl (hn _)

theorem pc_of_not_takesBranch {i : Instr} {s t : State} (h : exec i s = .next t) (hn : NoFault t)
    (ht : ∀ off, ¬ TakesBranch i off s) (hjal : mnemonicOf i ≠ .jal) (hjalr : mnemonicOf i ≠ .jalr) :
    t.pc = s.pc + 4 := by
  cases i with
  | add | sub | slt | srl | or | and | addi | lw | sw => exact pc_of_not_maySetPc (completes_of_noFault h hn) rfl
  | jal => exact absurd rfl hjal
  | jalr => exact absurd rfl hjalr
  | beq rs1 rs2 off =>
    exact (pc_of_exec_branch rfl h).trans
      (if_neg fun hc => ht off ⟨rs1, rs2, .inl ⟨rfl, (wordsEqual_iff ..).mp hc⟩⟩)
  | bne rs1 rs2 off =>
    exact (pc_of_exec_branch rfl h).trans
      (if_neg fun hc => ht off ⟨rs1, rs2, .inr (.inl ⟨rfl, (wordsDiffer_iff ..).mp hc⟩)⟩)
  | blt rs1 rs2 off =>
    have hmode := signedLt_of_exec_blt h hn
    exact (pc_of_exec_branch (exec_blt_of_signedLt hmode ..) h).trans
      (if_neg fun hc => ht off ⟨rs1, rs2, .inr (.inr ⟨rfl, hmode, (signedLess_iff ..).mp hc⟩)⟩)

/-- Settles O41: the writes from the shapes of a completed instruction, the pc from the branch's condition. -/
theorem atMostOneWriteBack : Obligations.AtMostOneWriteBack := by
  intro i s t h hn
  have hc := completes_of_noFault h hn
  refine ⟨?_, fun hsw => sameMemory_of_dmem_eq (onlySwWritesMemory i s t h hsw),
    fun r hr => readReg_of_ne_destination h hr, get_zero_of_completes hc, fun off ht => pc_of_takesBranch h ht, ?_, ?_,
    pc_of_not_takesBranch h hn⟩
  · rintro rs2 rs1 imm rfl
    exact onlyWord_of_completes_sw hc
  · rintro rd off rfl
    cases h
    rfl
  · rintro rd rs1 imm rfl
    cases h
    rfl

end Sys2Proof.Machine
end

section
/-! What an instruction reads (10_state.md R22, 20_memory.md R48): two machines that agree on it see the same effect. -/

namespace Sys2Proof.Machine

/-- The effect of an instruction, with every value it has read already in it. -/
inductive Effect where
  | write (rd : Reg) (v n : Word)
  | store (a v n : Word)
  | go (n : Word)
  | halt (n : Word)
  | fault (r : FaultReason)

/-- The state an effect leads to. -/
def Effect.apply : Effect → State → State
  | .write rd v n, s => (s.writeReg rd v).retire n
  | .store a v n, s => (s.storeWord a v).retire n
  | .go n, s => s.retire n
  | .halt n, s => (s.retire n).halt
  | .fault r, s => s.raiseFault r

/-- The instruction has one and the same effect in both machines. -/
def SameEffect (i : Instr) (s u : State) : Prop :=
  ∃ e : Effect, exec i s = .next (e.apply s) ∧ exec i u = .next (e.apply u)

/-! ## An effect on two machines -/

section
variable {s u : State} (e : Effect)

theorem Effect.apply_pc_congr (h : u.pc = s.pc) : (e.apply u).pc = (e.apply s).pc := by
  cases e with
  | write | store | go | halt => rfl
  | fault => exact h

theorem Effect.apply_run_congr (h : u.run = s.run) : (e.apply u).run = (e.apply s).run := by
  cases e with
  | write => simpa [Effect.apply] using h
  | store | go => exact h
  | halt | fault => rfl

theorem Effect.apply_dmem_congr (h : u.dmem = s.dmem) : (e.apply u).dmem = (e.apply s).dmem := by
  cases e with
  | write => simpa [Effect.apply] using h
  | store a v => exact congrArg (memWrite · a.toNat v) h
  | go | halt | fault => exact h

theorem State.writeReg_regs_congr (h : u.regs = s.regs) (rd : Reg) (v : Word) :
    (u.writeReg rd v).regs = (s.writeReg rd v).regs := by
  unfold State.writeReg
  split
  · exact h
  · exact congrArg (·.set rd v) h

theorem Effect.apply_regs_congr (h : u.regs = s.regs) : (e.apply u).regs = (e.apply s).regs := by
  cases e with
  | write rd v => exact congrArg (·.set 0 0) (State.writeReg_regs_congr h rd v)
  | store | go | halt => exact congrArg (·.set 0 0) h
  | fault => exact h

/-- Each word is the effect's own in both machines, or unchanged in both. -/
theorem Effect.apply_memRead (a : Nat) : memRead (e.apply u).dmem a = memRead (e.apply s).dmem a ∨
    (memRead (e.apply s).dmem a = memRead s.dmem a ∧ memRead (e.apply u).dmem a = memRead u.dmem a) := by
  cases e with
  | write => exact .inr (by simp [Effect.apply])
  | store b v =>
    simp only [Effect.apply, State.retire_dmem, State.storeWord_dmem, memRead_memWrite]
    by_cases h : a = b.toNat
    · exact .inl (by simp [h])
    · exact .inr (by simp [h])
  | go | halt | fault => exact .inr ⟨rfl, rfl⟩

/-- Each register is the effect's own in both machines, or unchanged in both. -/
theorem Effect.apply_readReg (r : Reg) : (e.apply u).readReg r = (e.apply s).readReg r ∨
    ((e.apply s).readReg r = s.readReg r ∧ (e.apply u).readReg r = u.readReg r) := by
  cases e with
  | write rd v =>
    simp only [Effect.apply, State.readReg_retire, State.readReg_writeReg]
    by_cases h0 : r = 0
    · exact .inl (by simp [h0])
    by_cases h : r = rd
    · exact .inl (by simp [h])
    · exact .inr (by simp [h0, h])
  | store a v n => exact .inr ⟨State.readReg_retire (s.storeWord a v) n r, State.readReg_retire (u.storeWord a v) n r⟩
  | go n | halt n => exact .inr ⟨State.readReg_retire s n r, State.readReg_retire u n r⟩
  | fault => exact .inr ⟨rfl, rfl⟩

end

/-! ## What decides the effect -/

theorem nextPc_congr {s u : State} (hpc : u.pc = s.pc) : nextPc u = nextPc s := congrArg (· + 4) hpc

theorem relativeTarget_congr {s u : State} (hpc : u.pc = s.pc) (off : Int) :
    relativeTarget u off = relativeTarget s off :=
  congrArg (addImm · off) hpc

theorem effectiveAddress_congr {s u : State} {rs1 : Reg} (h : u.readReg rs1 = s.readReg rs1) (imm : Int) :
    effectiveAddress u rs1 imm = effectiveAddress s rs1 imm := congrArg (addImm · imm) h

theorem indirectTarget_congr {s u : State} {rs1 : Reg} (h : u.readReg rs1 = s.readReg rs1) (imm : Int) :
    indirectTarget u rs1 imm = indirectTarget s rs1 imm := congrArg (· &&& 0xFFFFFFFE#32) (effectiveAddress_congr h imm)

/-- An instruction that writes one register, from the value and the next pc it computes. -/
theorem sameEffect_of_write {i : Instr} {s u : State} {rd : Reg} (v n : State → Word)
    (hexec : ∀ x, exec i x = .next ((x.writeReg rd (v x)).retire (n x))) (hv : v u = v s) (hn : n u = n s) :
    SameEffect i s u :=
  ⟨.write rd (v s) (n s), hexec s, by rw [hexec u, hv, hn]; rfl⟩

/-- An instruction of the register-register family. -/
theorem sameEffect_of_aluOp {i : Instr} {s u : State} {rd rs1 rs2 : Reg} (f : Word → Word → Word)
    (hexec : ∀ x, exec i x = aluOp f rd rs1 rs2 x) (hpc : u.pc = s.pc)
    (hsrc : ∀ r ∈ [rs1, rs2], u.readReg r = s.readReg r) : SameEffect i s u := by
  have h1 := hsrc rs1 (by simp)
  have h2 := hsrc rs2 (by simp)
  exact sameEffect_of_write (fun x => f (x.readReg rs1) (x.readReg rs2)) nextPc hexec (congrArg₂ f h1 h2)
    (nextPc_congr hpc)

/-- A branch: the comparison, then the form, decide. -/
theorem sameEffect_of_branchOn {i : Instr} {s u : State} {cond : Word → Word → Bool} {rs1 rs2 : Reg} {off : Int}
    (hs : exec i s = branchOn cond rs1 rs2 off s) (hu : exec i u = branchOn cond rs1 rs2 off u) (hpc : u.pc = s.pc)
    (hsrc : ∀ r ∈ [rs1, rs2], u.readReg r = s.readReg r) : SameEffect i s u := by
  have h1 := hsrc rs1 (by simp)
  have h2 := hsrc rs2 (by simp)
  by_cases hc : cond (s.readReg rs1) (s.readReg rs2) = true
  · by_cases hform : isHaltForm rs1 rs2 off = true
    · refine ⟨.halt (relativeTarget s off), ?_, ?_⟩
      · simp [hs, branchOn, takeBranch, hc, hform, Effect.apply]
      · simp [hu, branchOn, takeBranch, h1, h2, hc, hform, Effect.apply, relativeTarget_congr hpc]
    · refine ⟨.go (relativeTarget s off), ?_, ?_⟩
      · simp [hs, branchOn, takeBranch, hc, hform, Effect.apply]
      · simp [hu, branchOn, takeBranch, h1, h2, hc, hform, Effect.apply, relativeTarget_congr hpc]
  · refine ⟨.go (nextPc s), ?_, ?_⟩
    · simp [hs, branchOn, hc, Effect.apply]
    · simp [hu, branchOn, h1, h2, hc, Effect.apply, nextPc_congr hpc]

/-- A load or store: the address decides between the access, which has one effect in both machines, and the fault. -/
theorem sameEffect_of_withAlignedAddress {i : Instr} {s u : State} {rs1 : Reg} {imm : Int}
    (access : State → Word → State)
    (hexec : ∀ x, exec i x = withAlignedAddress rs1 imm x (access x)) (h1 : u.readReg rs1 = s.readReg rs1)
    (he : ∀ ea, ∃ e : Effect, access s ea = e.apply s ∧ access u ea = e.apply u) : SameEffect i s u := by
  have hea := effectiveAddress_congr h1 imm
  by_cases ha : (effectiveAddress s rs1 imm).toNat % 4 = 0
  · obtain ⟨e, hes, heu⟩ := he (effectiveAddress s rs1 imm)
    refine ⟨e, ?_, ?_⟩
    · rw [hexec, withAlignedAddress_of_aligned _ ha, hes]
    · rw [hexec, withAlignedAddress_of_aligned _ (by rwa [hea]), hea, heu]
  · refine ⟨.fault (.misalignedAccess (effectiveAddress s rs1 imm)), ?_, ?_⟩
    · rw [hexec, withAlignedAddress_of_not_aligned _ ha]
      rfl
    · rw [hexec, withAlignedAddress_of_not_aligned _ (by rwa [hea]), hea]
      rfl

/-- The pc, the parameters, the sources and, for LW alone, memory decide the effect of an instruction. -/
theorem sameEffect_of_agree {i : Instr} {s u : State} (hpc : u.pc = s.pc) (hparams : u.params = s.params)
    (hsrc : ∀ r ∈ sources i, u.readReg r = s.readReg r) (hmem : mnemonicOf i = .lw → u.dmem = s.dmem) :
    SameEffect i s u := by
  cases i with
  | add => exact sameEffect_of_aluOp (fun a b => a + b) (fun _ => rfl) hpc hsrc
  | sub => exact sameEffect_of_aluOp (fun a b => a - b) (fun _ => rfl) hpc hsrc
  | slt => exact sameEffect_of_aluOp (fun a b => boolWord (signedLess a b)) (fun _ => rfl) hpc hsrc
  | srl => exact sameEffect_of_aluOp (fun a b => a >>> shiftAmount b) (fun _ => rfl) hpc hsrc
  | or => exact sameEffect_of_aluOp (fun a b => a ||| b) (fun _ => rfl) hpc hsrc
  | and => exact sameEffect_of_aluOp (fun a b => a &&& b) (fun _ => rfl) hpc hsrc
  | addi rd rs1 imm =>
    exact sameEffect_of_write (effectiveAddress · rs1 imm) nextPc (fun _ => rfl)
      (effectiveAddress_congr (hsrc rs1 (by simp [sources])) imm) (nextPc_congr hpc)
  | jal rd off =>
    exact sameEffect_of_write nextPc (relativeTarget · off) (fun _ => rfl) (nextPc_congr hpc)
      (relativeTarget_congr hpc off)
  | jalr rd rs1 imm =>
    exact sameEffect_of_write nextPc (indirectTarget · rs1 imm) (fun _ => rfl) (nextPc_congr hpc)
      (indirectTarget_congr (hsrc rs1 (by simp [sources])) imm)
  | lw rd rs1 imm =>
    have h1 := hsrc rs1 (by simp [sources])
    refine sameEffect_of_withAlignedAddress _ (exec_lw rd rs1 imm) h1 fun ea => ?_
    refine ⟨.write rd (s.loadWord ea) (nextPc s), rfl, ?_⟩
    rw [State.loadWord, hmem rfl, nextPc_congr hpc]
    rfl
  | sw rs2 rs1 imm =>
    have h1 := hsrc rs1 (by simp [sources])
    have h2 := hsrc rs2 (by simp [sources])
    refine sameEffect_of_withAlignedAddress _ (exec_sw rs2 rs1 imm) h1 fun ea => ?_
    refine ⟨.store ea (s.readReg rs2) (nextPc s), rfl, ?_⟩
    rw [h2, nextPc_congr hpc]
    rfl
  | beq => exact sameEffect_of_branchOn (cond := wordsEqual) rfl rfl hpc hsrc
  | bne => exact sameEffect_of_branchOn (cond := wordsDiffer) rfl rfl hpc hsrc
  | blt =>
    cases hmode : s.params.bltMode with
    | fault => exact ⟨.fault _, exec_blt_of_fault hmode .., exec_blt_of_fault (by rw [hparams, hmode]) ..⟩
    | signedLt =>
      exact sameEffect_of_branchOn (exec_blt_of_signedLt hmode ..) (exec_blt_of_signedLt (by rw [hparams, hmode]) ..)
        hpc hsrc

/-- Settles O44: the two machines differ in memory alone, which decides the effect of LW alone. -/
theorem onlyLwReadsMemory : Obligations.OnlyLwReadsMemory := by
  intro i s m hlw
  obtain ⟨e, hs, hu⟩ : SameEffect i s { s with dmem := m } :=
    sameEffect_of_agree rfl rfl (fun _ _ => rfl) fun h => absurd h hlw
  exact ⟨_, _, hs, hu, e.apply_pc_congr rfl, e.apply_regs_congr rfl, e.apply_run_congr rfl, e.apply_memRead⟩

/-- Settles O45: machines that agree on the sources see the same effect. -/
theorem instructionReadsOnlyItsSources : Obligations.InstructionReadsOnlyItsSources := by
  intro i s u hpc hdmem hparams hrun hsrc
  obtain ⟨e, hs, hu⟩ := sameEffect_of_agree hpc hparams hsrc fun _ => hdmem
  exact ⟨_, _, hs, hu, e.apply_pc_congr hpc, e.apply_dmem_congr hdmem, e.apply_run_congr hrun, e.apply_readReg⟩

end Sys2Proof.Machine
end

section
/-! Reset and the final dump (10_state.md R33, R34, 70_reset_and_hazards.md R170 to R172). -/

namespace Sys2Proof.Machine

/-- The registers at reset: `SP_INIT` in the stack pointer, 0 elsewhere. -/
theorem resetWith_regs_get (p : Params) (m : List Word) (r : Reg) :
    (State.resetWith p m).regs.get r = if r = 2 then p.spInit else 0 := by
  by_cases h : r = 2
  · subst h
    simp [State.resetWith, Config.spIndex, Vector.get_eq_getElem]
  · have hval : (2 : Nat) ≠ r.val := fun e => h (Fin.ext e.symm)
    simp [State.resetWith, Config.spIndex, Vector.get_eq_getElem, h, hval]

/-- Settles O47: register 0 is not the stack pointer, the pc is 0, and memory is empty. -/
theorem resetMeetsTheInvariant : Obligations.ResetMeetsTheInvariant := by
  have h : ∀ (p : Params) (m : List Word), Inv (State.resetWith p m) := fun p m =>
    ⟨(resetWith_regs_get p m 0).trans (if_neg (by decide)), rfl, resetWith_wf p m⟩
  exact ⟨h, h Config.params []⟩

/-- Settles O51: the registers by their common formula, the rest field by field. -/
theorem resetLeavesTheStatedState : Obligations.ResetLeavesTheStatedState := by
  rintro p m s rfl
  have hregs := resetWith_regs_get p m
  refine ⟨rfl, ?_, fun r hr => ?_, fun _ => rfl, rfl, rfl, rfl, rfl⟩
  · rw [State.readReg_of_ne _ 2 (by decide), hregs, if_pos rfl]
  · have h0 : (State.resetWith p m).regs.get r = 0 := by rw [hregs, if_neg hr]
    exact ⟨h0, by rw [State.readReg, h0, ite_self]⟩

/-- Settles O52: reset keeps program and parameters, and the pc 0 fetches word 0 or finds the store empty. -/
theorem resetWorksFromEveryState : Obligations.ResetWorksFromEveryState := by
  intro s
  refine ⟨rfl, fun w i hw hd => ?_, fun hempty => ?_⟩
  · have hfetch : FetchesWord s.applyReset w := ⟨rfl, by simpa using hw⟩
    exact step_of_decode_ok rfl hfetch hd
  · exact step_of_absent (s := s.applyReset) rfl rfl (by simp [hempty])

/-- Settles O53: the dump is a map over the window's word numbers. -/
theorem dumpShowsTheWindow : Obligations.DumpShowsTheWindow := by
  intro s
  refine ⟨by simp [memoryDump], fun k hk => by simp [memoryDump, hk], fun hr => ?_, fun hr => ?_⟩
  · simp [finalDump, ended, hr]
  · simp [finalDump, ended, hr]

end Sys2Proof.Machine
end

section
/-! Runs under fuel (40_fetch_dispatch.md R106, R108). -/

namespace Sys2Proof.Machine

theorem ended_iff (s : State) : ended s = true ↔ s.run ≠ .running := by simp [ended]

theorem runWithFuel_of_running {k : Nat} {s : State} (h : (stateAfter k s).run = .running) :
    runWithFuel k s = .outOfFuel (stateAfter k s) (snapshotsFor k s) :=
  if_neg fun he => (ended_iff _).mp he h

theorem runWithFuel_of_ended {k : Nat} {s : State} (h : (stateAfter k s).run ≠ .running) :
    runWithFuel k s = .ended (stateAfter k s) (snapshotsFor k s) (memoryDump (stateAfter k s)) :=
  if_pos ((ended_iff _).mpr h)

/-- A run that is still going has shown a snapshot at each step: an exhausted stream would have ended it. -/
theorem length_snapshotsFor_of_running (k : Nat) (s : State) (h : (stateAfter k s).run = .running) :
    (snapshotsFor k s).length = k := by
  induction k generalizing s with
  | zero => rfl
  | succ k ih =>
    have hrun : s.run = .running := by
      by_contra hne
      exact hne (stateAfter_of_ended (k + 1) s hne ▸ h)
    obtain ⟨t, ht⟩ := runningStepAlwaysHasNextState s hrun
    have hadv := State.advance_of_next s t ht
    rw [stateAfter, hadv] at h
    have hgoing : t.run ≠ .exhausted := fun e => by
      rw [stateAfter_of_ended k t (by simp [e]), e] at h
      cases h
    rw [snapshotsFor, hadv, emitted_of_step ht, if_neg hgoing, List.length_append, ih t h, Option.toList_some,
      List.length_singleton, Nat.add_comm]

/-- More fuel changes nothing once the run has ended. -/
theorem runWithFuel_of_le {j k : Nat} {s : State} (h : (stateAfter j s).run ≠ .running) (hjk : j ≤ k) :
    runWithFuel k s = runWithFuel j s := by
  obtain ⟨d, rfl⟩ := Nat.exists_eq_add_of_le hjk
  have hstate : stateAfter (j + d) s = stateAfter j s := by rw [stateAfter_add, stateAfter_of_ended d _ h]
  have hshown : snapshotsFor (j + d) s = snapshotsFor j s := by
    rw [snapshotsFor_add, snapshotsFor_of_ended d _ h, List.append_nil]
  rw [runWithFuel, runWithFuel, hstate, hshown]

/-- Settles O58: an ended run takes no more steps, and one still going has shown a snapshot per step. -/
theorem fuelIsNoEnding : Obligations.FuelIsNoEnding := by
  intro s j
  by_cases h : (stateAfter j s).run = .running
  · rw [runWithFuel_of_running h]
    refine ⟨fun _ _ _ e => (by cases e), fun t shown e => ?_⟩
    cases e
    exact ⟨h, length_snapshotsFor_of_running j s h⟩
  · refine ⟨fun t shown dump e => ⟨?_, fun k hjk => (runWithFuel_of_le h hjk).trans e⟩, fun t shown e => ?_⟩
    · rw [runWithFuel_of_ended h] at e
      cases e
      exact h
    · rw [runWithFuel_of_ended h] at e
      cases e

/-! ## The endless loops -/

theorem branchOn_of_taken {cond : Word → Word → Bool} {rs1 rs2 : Reg} {off : Int} {s : State}
    (hc : cond (s.readReg rs1) (s.readReg rs2) = true) (hform : ¬ (off = 0 ∧ rs1 = 0 ∧ rs2 = 0)) :
    branchOn cond rs1 rs2 off s = .next (s.retire (relativeTarget s off)) := by
  rcases branchOn_cases cond rs1 rs2 off s with ⟨-, hf, h1, h2, -⟩ | ⟨-, -, e⟩ | ⟨hc', -⟩
  · exact absurd ⟨hf, h1, h2⟩ hform
  · exact e
  · rw [hc] at hc'
    cases hc'

/-- A taken branch other than the virtual halt only sets the pc: BNE and BLT never compare register 0 with itself. -/
theorem exec_of_takesBranch {i : Instr} {off : Int} {s : State} (ht : TakesBranch i off s) (hi : i ≠ .beq 0 0 0) :
    exec i s = .next (s.retire (relativeTarget s off)) := by
  obtain ⟨rs1, rs2, ⟨rfl, hc⟩ | ⟨rfl, hc⟩ | ⟨rfl, hmode, hc⟩⟩ := ht
  · refine branchOn_of_taken ((wordsEqual_iff ..).mpr hc) ?_
    rintro ⟨rfl, rfl, rfl⟩
    exact hi rfl
  · refine branchOn_of_taken ((wordsDiffer_iff ..).mpr hc) ?_
    rintro ⟨-, rfl, rfl⟩
    exact hc rfl
  · refine (exec_blt_of_signedLt hmode ..).trans (branchOn_of_taken ((signedLess_iff ..).mpr hc) ?_)
    rintro ⟨-, rfl, rfl⟩
    exact lt_irrefl _ hc

theorem takesBranch_retire {i : Instr} {off : Int} {s : State} (n : Word) (ht : TakesBranch i off s) :
    TakesBranch i off (s.retire n) := by
  simpa only [TakesBranch, State.readReg_retire, State.retire_params] using ht

/-- The machine stands at `p` on an instruction that goes to itself and does not halt. -/
def LoopsAt (p : Word) (i : Instr) (s : State) : Prop :=
  s.pc = p ∧ RunsNext s i ∧ (TakesBranch i 0 s ∧ i ≠ .beq 0 0 0 ∨ ∃ rd, i = .jal rd 0)

theorem runsNext_of_samePc {i : Instr} {s t : State} (h : RunsNext s i) (hpc : t.pc = s.pc) (hrun : t.run = s.run)
    (himem : t.imem = s.imem) : RunsNext t i := by
  obtain ⟨hr, w, ⟨h4, hw⟩, hd⟩ := h
  exact ⟨hrun.trans hr, w, ⟨by rwa [hpc], by rwa [hpc, himem]⟩, hd⟩

/-- The loop comes back to itself. -/
theorem loopsAt_of_step {p : Word} {i : Instr} {s t : State} (hl : LoopsAt p i s) (h : step s = .next t) :
    LoopsAt p i t := by
  obtain ⟨hp, hnext, hloop⟩ := hl
  rw [stepRunsTheDecodedInstruction s i hnext] at h
  rcases hloop with ⟨ht, hi⟩ | ⟨rd, rfl⟩
  · rw [exec_of_takesBranch ht hi, relativeTarget_zero] at h
    cases h
    exact ⟨hp, runsNext_of_samePc hnext rfl rfl rfl, .inl ⟨takesBranch_retire s.pc ht, hi⟩⟩
  · cases h
    have hpc : relativeTarget s 0 = s.pc := relativeTarget_zero s
    exact ⟨hpc.trans hp, runsNext_of_samePc hnext hpc (by simp) (by simp), .inr ⟨rd, rfl⟩⟩

/-- Settles O59: every state of the run stands on the loop, so it runs, at the same pc. -/
theorem selfTargetingLoopRunsForEver : Obligations.SelfTargetingLoopRunsForEver := by
  intro s i hnext hloop
  have hall : ∀ fuel, LoopsAt s.pc i (stateAfter fuel s) := fun fuel =>
    stateAfter_induction (LoopsAt s.pc i) (fun _ _ hl h => loopsAt_of_step hl h) fuel s ⟨rfl, hnext, hloop⟩
  have hrun : RunsForEver s := fun fuel => (hall fuel).2.1.1
  exact ⟨hrun, fun fuel => ⟨_, _, runWithFuel_of_running (hrun fuel), (hall fuel).1⟩⟩

end Sys2Proof.Machine
end

section
/-! The assembler layer (30_encoding.md section 7, R84 to R92; 10_state.md R23): names, labels and lines. -/

namespace Sys2Proof.Machine

/-! ## Register names -/

/-- In a table without repetition a name is found exactly at its own place. -/
theorem nameIndex_eq_some_iff {ns : List String} (hnd : ns.Nodup) (s : String) (k : Nat) :
    nameIndex ns s = some k ↔ ns[k]? = some s := by
  induction ns generalizing k with
  | nil => simp [nameIndex]
  | cons n ns ih =>
    obtain ⟨hn, hnd⟩ := List.nodup_cons.mp hnd
    by_cases h : n = s
    · subst h
      cases k with
      | zero => simp [nameIndex]
      | succ k =>
        have : ns[k]? ≠ some n := fun e => hn (List.mem_of_getElem? e)
        simp [nameIndex, this]
    · cases k with
      | zero => simp [nameIndex, h]
      | succ k => simp [nameIndex, h, ih hnd]

theorem registerNames_nodup : registerNames.Nodup := by decide

theorem registerOf_eq_some_iff (n : String) (r : Reg) : registerOf n = some r ↔ registerNames[r.val]? = some n := by
  rw [← nameIndex_eq_some_iff registerNames_nodup, registerOf, Option.map_eq_some_iff]
  constructor
  · rintro ⟨k, hk, rfl⟩
    have hlt : k < 32 := (List.getElem?_eq_some_iff.mp ((nameIndex_eq_some_iff registerNames_nodup n k).mp hk)).1
    rwa [Fin.val_ofNat, Nat.mod_eq_of_lt hlt]
  · exact fun h => ⟨r.val, h, Fin.ofNat_val_eq_self r⟩

/-- Settles O57: the table repeats no name, so the search inverts it. -/
theorem registerNamesAreDistinct : Obligations.RegisterNamesAreDistinct := ⟨rfl, registerOf_eq_some_iff⟩

/-! ## One line -/

theorem encodeLine_eq_ok_iff (i : Instr) (w : Word) : encodeLine i = .ok w ↔ encode i = .ok w := by
  rcases h : encode i with ⟨_⟩ | _ <;> simp [encodeLine, h]

theorem encodeLine_of_outOfRange {i : Instr} (h : encode i = .error .immediateOutOfRange) :
    encodeLine i = .error .immediateOutOfRange := by
  simp [encodeLine, h]

/-- A line with a known mnemonic, the right number of tokens and operands that parse is encoded. -/
theorem assembleLine_of_parse {table : LabelTable} {own : Int} {mn : String} {ops : List Operand} {m : Mnemonic}
    {i : Instr}
    (hm : mnemonicOfName mn = some m) (hcount : ops.length + 1 = tokenCount m)
    (hparse : parseOperands table own m ops = .ok i) : assembleLine table own mn ops = encodeLine i := by
  simp [assembleLine, hm, hcount, hparse]

theorem parse_of_assembleLine_eq_ok {table : LabelTable} {own : Int} {mn : String} {ops : List Operand} {w : Word}
    (h : assembleLine table own mn ops = .ok w) :
    ∃ m i, mnemonicOfName mn = some m ∧ ops.length + 1 = tokenCount m ∧ parseOperands table own m ops = .ok i ∧
      encode i = .ok w := by
  cases hm : mnemonicOfName mn with
  | none => simp [assembleLine, hm] at h
  | some m =>
    by_cases hcount : ops.length + 1 = tokenCount m
    · cases hparse : parseOperands table own m ops with
      | error e => simp [assembleLine, hm, hcount, hparse] at h
      | ok i =>
        rw [assembleLine_of_parse hm hcount hparse] at h
        exact ⟨m, i, rfl, hcount, hparse, (encodeLine_eq_ok_iff i w).mp h⟩
    · simp [assembleLine, hm, hcount] at h

theorem mnemonicOfName_eq_none {mn : String} (h : ∀ m, spelling m ≠ mn) : mnemonicOfName mn = none := by
  simp [mnemonicOfName, h]

/-- Settles O56: a word comes only from the last check of a line, and an unknown mnemonic stops at the first. -/
theorem assembledWordIsAnEncoding : Obligations.AssembledWordIsAnEncoding := by
  refine ⟨fun _ _ _ _ _ => parse_of_assembleLine_eq_ok, fun table own mn ops h => ?_⟩
  rw [assembleLine, mnemonicOfName_eq_none h]

/-! ## All lines -/

/-- The bytes a line takes: 4 for an instruction, whether or not it assembles (R84). -/
def lineSize (l : Line) : Int := if l.instr.isSome then 4 else 0

theorem scanLabels_cons (a : Int) (l : Line) (ls : List Line) :
    scanLabels a (l :: ls) = (l.label.map fun n => (n, a)).toList ++ scanLabels (a + lineSize l) ls := by
  obtain ⟨label, instr⟩ := l
  cases label <;> cases instr <;> simp [scanLabels, lineSize]

/-- The number of instruction lines. -/
def instrCount (ls : List Line) : Nat := (ls.filter fun l => l.instr.isSome).length

theorem instrCount_cons (l : Line) (ls : List Line) :
    (4 * instrCount (l :: ls) : Int) = lineSize l + 4 * instrCount ls := by
  cases h : l.instr with
  | none => simp [instrCount, lineSize, h]
  | some x =>
    simp [instrCount, lineSize, h]
    ring

theorem scanLabels_append (a : Int) (ls ls' : List Line) :
    scanLabels a (ls ++ ls') = scanLabels a ls ++ scanLabels (a + 4 * instrCount ls) ls' := by
  induction ls generalizing a with
  | nil => simp [scanLabels, instrCount]
  | cons l ls ih =>
    rw [List.cons_append, scanLabels_cons, scanLabels_cons, ih, List.append_assoc, instrCount_cons, add_assoc]

/-- The scan depends on the labels and on which lines are instructions, and on no instruction itself. -/
theorem scanLabels_replace (a : Int) (pre post : List Line) (label : Option String) (x y : String × List Operand) :
    scanLabels a (pre ++ ⟨label, some x⟩ :: post) = scanLabels a (pre ++ ⟨label, some y⟩ :: post) := by
  simp only [scanLabels_append, scanLabels_cons, lineSize, Option.isSome_some]

theorem filter_scanLabels_eq_nil {n : String} (a : Int) {ls : List Line} (h : ∀ l ∈ ls, l.label ≠ some n) :
    (scanLabels a ls).filter (fun e => e.1 == n) = [] := by
  induction ls generalizing a with
  | nil => rfl
  | cons l ls ih =>
    obtain ⟨hl, hls⟩ := List.forall_mem_cons.mp h
    rw [scanLabels_cons, List.filter_append, ih _ hls, List.append_nil]
    cases hlabel : l.label with
    | none => rfl
    | some m =>
      have : m ≠ n := fun e => hl (hlabel.trans (congrArg some e))
      simp [this]

/-- A label defined once names the address of its line. -/
theorem labelAddress_of_defined_once {pre post : List Line} {n : String} {ins : Option (String × List Operand)}
    (h : ∀ l ∈ pre ++ post, l.label ≠ some n) :
    labelAddress (scanLabels 0 (pre ++ ⟨some n, ins⟩ :: post)) n = .ok (4 * instrCount pre) := by
  have hpre := filter_scanLabels_eq_nil 0 fun l hl => h l (List.mem_append_left post hl)
  have hpost := fun a => filter_scanLabels_eq_nil a fun l hl => h l (List.mem_append_right pre hl)
  simp [labelAddress, scanLabels_append, scanLabels_cons, List.filter_append, hpre, hpost]

/-- Each instruction line is assembled at 4 times its number. -/
theorem assembleFrom_eq_mapIdx (table : LabelTable) (a : Int) (ls : List Line) :
    assembleFrom table a ls =
      (ls.filterMap (·.instr)).mapIdx fun k x => assembleLine table (a + 4 * k) x.1 x.2 := by
  induction ls generalizing a with
  | nil => rfl
  | cons l ls ih =>
    cases h : l.instr with
    | none => simp [assembleFrom, h, ih]
    | some x => simp [assembleFrom, h, ih, List.mapIdx_cons, add_assoc, add_comm (4 : Int), mul_add]

theorem assemble_getElem? {ls : List Line} {k : Nat} {mn : String} {ops : List Operand}
    (h : (ls.filterMap (·.instr))[k]? = some (mn, ops)) :
    (assemble ls)[k]? = some (assembleLine (scanLabels 0 ls) (4 * k) mn ops) := by
  simp [assemble, assembleFrom_eq_mapIdx, h]

theorem length_filterMap_instr (ls : List Line) : (ls.filterMap (·.instr)).length = instrCount ls := by
  simp [instrCount, List.length_filterMap_eq_countP, List.countP_eq_length_filter]

/-- Settles O55: the labels do not depend on the replaced instruction, and each other line is assembled at its own
address as before. -/
theorem oneLineChangesNoOtherOutput : Obligations.OneLineChangesNoOtherOutput := by
  intro pre post label x y k hk
  have hlen : k = (pre.filterMap (·.instr)).length := hk.trans (length_filterMap_instr pre).symm
  constructor
  · rw [assemble, assembleFrom_eq_mapIdx, List.length_mapIdx, length_filterMap_instr, instrCount]
  · simp only [assemble, assembleFrom_eq_mapIdx, scanLabels_replace 0 pre post label x y, List.filterMap_append,
      List.filterMap_cons, List.mapIdx_append, List.mapIdx_cons]
    rw [List.eraseIdx_append_of_length_le (by simp [hlen]), List.eraseIdx_append_of_length_le (by simp [hlen])]
    simp [hlen]

/-! ## Jumps and branches to a label -/

theorem registerSlot_name {x : String} {r : Reg} (h : registerOf x = some r) : registerSlot (.name x) = .ok r := by
  simp [registerSlot, h]

theorem targetSlot_name {table : LabelTable} {n : String} {a : Int} (h : labelAddress table n = .ok a) (own : Int) :
    targetSlot table own (.name n) = .ok (a - own) := by
  simp [targetSlot, h]

theorem assembleLine_jal {table : LabelTable} {own a : Int} {rd n : String} {r : Reg} (hrd : registerOf rd = some r)
    (hn : labelAddress table n = .ok a) :
    assembleLine table own "jal" [.name rd, .name n] = encodeLine (.jal r (a - own)) := by
  refine assembleLine_of_parse (m := .jal) (by decide) rfl ?_
  rw [parseOperands, registerSlot_name hrd, targetSlot_name hn]
  rfl

/-- The operands of a branch to a label, the same for all three. -/
theorem parseOperands_branch {table : LabelTable} {own a : Int} {x y n : String} {rs1 rs2 : Reg}
    (hx : registerOf x = some rs1) (hy : registerOf y = some rs2) (hn : labelAddress table n = .ok a) :
    parseOperands table own .beq [.name x, .name y, .name n] = .ok (.beq rs1 rs2 (a - own)) ∧
    parseOperands table own .bne [.name x, .name y, .name n] = .ok (.bne rs1 rs2 (a - own)) ∧
    parseOperands table own .blt [.name x, .name y, .name n] = .ok (.blt rs1 rs2 (a - own)) := by
  simp only [parseOperands, registerSlot_name hx, registerSlot_name hy, targetSlot_name hn]
  exact ⟨rfl, rfl, rfl⟩

theorem assembleLine_branch {table : LabelTable} {own a : Int} {mn x y n : String} {rs1 rs2 : Reg} {i : Instr}
    (hx : registerOf x = some rs1) (hy : registerOf y = some rs2) (hn : labelAddress table n = .ok a)
    (hi : mn = "beq" ∧ i = .beq rs1 rs2 (a - own) ∨ mn = "bne" ∧ i = .bne rs1 rs2 (a - own) ∨
      mn = "blt" ∧ i = .blt rs1 rs2 (a - own)) :
    assembleLine table own mn [.name x, .name y, .name n] = encodeLine i := by
  obtain ⟨hbeq, hbne, hblt⟩ := parseOperands_branch (own := own) hx hy hn
  rcases hi with ⟨rfl, rfl⟩ | ⟨rfl, rfl⟩ | ⟨rfl, rfl⟩
  · exact assembleLine_of_parse (by decide) rfl hbeq
  · exact assembleLine_of_parse (by decide) rfl hbne
  · exact assembleLine_of_parse (by decide) rfl hblt

/-- Settles O54: the label names its line's address, and a line's output is its instruction's encoding. -/
theorem labelOffsetIsTargetLessOwnAddress : Obligations.LabelOffsetIsTargetLessOwnAddress := by
  rintro pre post n ins _ _ rfl honce rfl
  have hn := labelAddress_of_defined_once (ins := ins) honce
  refine ⟨hn, targetSlot_name hn, fun k mn ops i hk hi => ?_⟩
  have hline : assembleLine (scanLabels 0 (pre ++ ⟨some n, ins⟩ :: post)) (4 * k) mn ops = encodeLine i := by
    rcases hi with ⟨rd, r, hrd, rfl, rfl, rfl⟩ | ⟨x, y, rs1, rs2, hx, hy, rfl, hi⟩
    · exact assembleLine_jal hrd hn
    · exact assembleLine_branch hx hy hn hi
  rw [assemble_getElem? hk, hline]
  exact ⟨fun w hw => congrArg some ((encodeLine_eq_ok_iff i w).mpr hw),
    fun hw => congrArg some (encodeLine_of_outOfRange hw)⟩

end Sys2Proof.Machine
end
